-- ==== Sys2Proof/Word.lean ====
section
/-! DEFINITION. The word, byte and register-number types (spec/00_scope.md R5, R6: XLEN = 32, NREGS = 32). -/

namespace Sys2Proof

/-- A 32-bit pattern: a register, the pc, an address, an ALU value, an instruction (R5, R6). -/
abbrev Word := BitVec 32

/-- One byte of memory or of a host stream (R24, R193). -/
abbrev Byte := BitVec 8

/-- The number of a general register, x0 to x31 (R10). -/
abbrev RegIdx := Fin 32

end Sys2Proof
end

