-- ==== Sys2Proof/Config.lean ====
section
/-! DEFINITION. What is fixed for the machine, and the defaults of the run's arguments (spec/00_scope.md R5).
The arguments themselves are fields of State. HAS_M is false (D2): the decoder resolves no RV32M word. -/

namespace Sys2Proof

/-- The number of byte addresses (R24: 32-bit byte addresses, one byte per address). -/
def Config.addressCount : Nat := 2 ^ 32

/-- The default of GETCHAR_EOF (R5, D14). -/
def Config.defaultGetcharEof : Word := 0xFFFFFFFF#32

/-- START_PC in `State.reset`. DESIGN CHOICE (log entry 1): the spec leaves it to the caller (D21). Unsafe. -/
def Config.defaultStartPc : Word := 0#32

/-- STEP_BUDGET in `State.reset`. DESIGN CHOICE (log entry 1): the spec leaves it to the caller (D13). Unsafe. -/
def Config.defaultBudget : Option Nat := none

end Sys2Proof
end

