-- ==== Sys2Proof/Syntax.lean ====
section
/-! DEFINITION. The instructions: one constructor per row of spec/opcode_table.json (spec/30_encoding.md R70).
Immediates are the decoder's: 32-bit values already sign-extended (R52), byte offsets for branches and JAL,
the pattern with twelve low zero bits for LUI and AUIPC (R63); shift amounts are five bits (R127). -/

namespace Sys2Proof

/-- The 38 instructions, operands in the order of R85 (stores: base, data, displacement). -/
inductive Instr where
  | add (rd rs1 rs2 : RegIdx)   -- R105
  | sub (rd rs1 rs2 : RegIdx)   -- R106
  | sll (rd rs1 rs2 : RegIdx)   -- R107
  | slt (rd rs1 rs2 : RegIdx)   -- R108
  | sltu (rd rs1 rs2 : RegIdx)   -- R109
  | xor (rd rs1 rs2 : RegIdx)   -- R110
  | srl (rd rs1 rs2 : RegIdx)   -- R111
  | sra (rd rs1 rs2 : RegIdx)   -- R112
  | or (rd rs1 rs2 : RegIdx)   -- R113
  | and (rd rs1 rs2 : RegIdx)   -- R114
  | addi (rd rs1 : RegIdx) (imm : Word)   -- R122
  | slti (rd rs1 : RegIdx) (imm : Word)   -- R123
  | sltiu (rd rs1 : RegIdx) (imm : Word)   -- R124
  | xori (rd rs1 : RegIdx) (imm : Word)   -- R125
  | ori (rd rs1 : RegIdx) (imm : Word)   -- R126
  | andi (rd rs1 : RegIdx) (imm : Word)   -- R126
  | slli (rd rs1 : RegIdx) (shamt : BitVec 5)   -- R128
  | srli (rd rs1 : RegIdx) (shamt : BitVec 5)   -- R129
  | srai (rd rs1 : RegIdx) (shamt : BitVec 5)   -- R130
  | lb (rd rs1 : RegIdx) (imm : Word)   -- R145
  | lh (rd rs1 : RegIdx) (imm : Word)   -- R146
  | lw (rd rs1 : RegIdx) (imm : Word)   -- R147
  | lbu (rd rs1 : RegIdx) (imm : Word)   -- R148
  | lhu (rd rs1 : RegIdx) (imm : Word)   -- R149
  | sb (rs1 rs2 : RegIdx) (imm : Word)   -- R155
  | sh (rs1 rs2 : RegIdx) (imm : Word)   -- R156
  | sw (rs1 rs2 : RegIdx) (imm : Word)   -- R157
  | beq (rs1 rs2 : RegIdx) (imm : Word)   -- R166
  | bne (rs1 rs2 : RegIdx) (imm : Word)   -- R167
  | blt (rs1 rs2 : RegIdx) (imm : Word)   -- R168
  | bge (rs1 rs2 : RegIdx) (imm : Word)   -- R168
  | bltu (rs1 rs2 : RegIdx) (imm : Word)   -- R169
  | bgeu (rs1 rs2 : RegIdx) (imm : Word)   -- R169
  | jal (rd : RegIdx) (imm : Word)   -- R172
  | jalr (rd rs1 : RegIdx) (imm : Word)   -- R173
  | lui (rd : RegIdx) (imm : Word)   -- R181
  | auipc (rd : RegIdx) (imm : Word)   -- R182
  | ecall   -- R190
  deriving DecidableEq, Repr

end Sys2Proof
end

