-- ==== Sys2Proof/WellFormed.lean ====
section
/-! DEFINITION. When an instruction is one that an encoding exists for: its immediate is in the range of its format
(spec/30_encoding.md R60 to R64). Register numbers and shift amounts are in range by their types. -/

namespace Sys2Proof

/-- R60, R61: -2048 .. 2047. -/
def immFits12 (imm : Word) : Bool :=
  decide (-2048 ≤ imm.toInt) && decide (imm.toInt ≤ 2047)

/-- R62: -4096 .. 4094, always even. -/
def immFitsBranch (imm : Word) : Bool :=
  decide (-4096 ≤ imm.toInt) && decide (imm.toInt ≤ 4094) && decide (imm.toInt % 2 = 0)

/-- R63: the low twelve bits are zero. -/
def immFitsUpper (imm : Word) : Bool :=
  decide (imm.toNat % 4096 = 0)

/-- R64: -1048576 .. 1048574, always even. -/
def immFitsJump (imm : Word) : Bool :=
  decide (-1048576 ≤ imm.toInt) && decide (imm.toInt ≤ 1048574) && decide (imm.toInt % 2 = 0)

/-- The instruction has an encoding. -/
def Instr.wellFormed : Instr → Bool
  | .add _ _ _ => true
  | .sub _ _ _ => true
  | .sll _ _ _ => true
  | .slt _ _ _ => true
  | .sltu _ _ _ => true
  | .xor _ _ _ => true
  | .srl _ _ _ => true
  | .sra _ _ _ => true
  | .or _ _ _ => true
  | .and _ _ _ => true
  | .addi _ _ imm => immFits12 imm
  | .slti _ _ imm => immFits12 imm
  | .sltiu _ _ imm => immFits12 imm
  | .xori _ _ imm => immFits12 imm
  | .ori _ _ imm => immFits12 imm
  | .andi _ _ imm => immFits12 imm
  | .slli _ _ _ => true
  | .srli _ _ _ => true
  | .srai _ _ _ => true
  | .lb _ _ imm => immFits12 imm
  | .lh _ _ imm => immFits12 imm
  | .lw _ _ imm => immFits12 imm
  | .lbu _ _ imm => immFits12 imm
  | .lhu _ _ imm => immFits12 imm
  | .sb _ _ imm => immFits12 imm
  | .sh _ _ imm => immFits12 imm
  | .sw _ _ imm => immFits12 imm
  | .beq _ _ imm => immFitsBranch imm
  | .bne _ _ imm => immFitsBranch imm
  | .blt _ _ imm => immFitsBranch imm
  | .bge _ _ imm => immFitsBranch imm
  | .bltu _ _ imm => immFitsBranch imm
  | .bgeu _ _ imm => immFitsBranch imm
  | .jal _ imm => immFitsJump imm
  | .jalr _ _ imm => immFits12 imm
  | .lui _ imm => immFitsUpper imm
  | .auipc _ imm => immFitsUpper imm
  | .ecall => true

end Sys2Proof
end

