-- ==== Sys2Proof/Decode.lean ====
section
/-! DEFINITION. The bit-field extractor, the instruction decoder and the mnemonic resolver of spec/30_encoding.md, total on
all words and rejecting by name, then the encoder, written from the same layouts, and the opcode table's masks. -/

namespace Sys2Proof

/-! ## Bit fields and extension -/

/-- The extractor (R7, R201): `extract w start length` is `w[start+length-1 : start]`, unsigned. Its precondition
`start + length ≤ 32` is a hypothesis (U4: no rule calls it outside). -/
def extract (w : Word) (start length : Nat) (_h : start + length ≤ 32 := by decide) : BitVec length :=
  w.extractLsb' start length

/-- `sext_N(v)` of R7: the low N bits of v read as two's complement. -/
def sext (n : Nat) {m : Nat} (v : BitVec m) : Word :=
  (v.setWidth n).signExtend 32

/-- `zext_N(v)` of R7: the low N bits of v, the bits above zero. -/
def zext (n : Nat) {m : Nat} (v : BitVec m) : Word :=
  (v.setWidth n).setWidth 32

/-! ## The decoder -/

/-- The format tag (R52, R53; an enumeration by D23). -/
inductive Format where
  | r | i | s | b | u | j | unknown
  deriving DecidableEq, Repr

/-- The decoder's record (R52). A field the format lacks is zero (R55, D6, log entry 8). -/
structure DecodedInstruction where
  format : Format
  opcode : BitVec 7
  funct3 : BitVec 3
  funct7 : BitVec 7
  rd : BitVec 5
  rs1 : BitVec 5
  rs2 : BitVec 5
  imm : Word
  raw : Word
  deriving DecidableEq, Repr

/-- Format classification: by the opcode field alone (R53). -/
def classify (opcode : BitVec 7) : Format :=
  if opcode = 0b0110011#7 then .r
  else if opcode = 0b0010011#7 ∨ opcode = 0b0000011#7 ∨ opcode = 0b1100111#7 ∨ opcode = 0b1110011#7 then .i
  else if opcode = 0b0100011#7 then .s
  else if opcode = 0b1100011#7 then .b
  else if opcode = 0b0110111#7 ∨ opcode = 0b0010111#7 then .u
  else if opcode = 0b1101111#7 then .j
  else .unknown

/-- R60: `sext_12(word[31:20])`. -/
def immI (w : Word) : Word := sext 12 (extract w 20 12)

/-- R61: `sext_12(word[31:25] ++ word[11:7])`. -/
def immS (w : Word) : Word := sext 12 (extract w 25 7 ++ extract w 7 5)

/-- R62: `sext_13(word[31] ++ word[7] ++ word[30:25] ++ word[11:8] ++ 0)`. -/
def immB (w : Word) : Word :=
  sext 13 (extract w 31 1 ++ extract w 7 1 ++ extract w 25 6 ++ extract w 8 4 ++ 0#1)

/-- R63: `word[31:12] ++ 0x000`. -/
def immU (w : Word) : Word := extract w 12 20 ++ 0#12

/-- R64: `sext_21(word[31] ++ word[19:12] ++ word[20] ++ word[30:21] ++ 0)`. -/
def immJ (w : Word) : Word :=
  sext 21 (extract w 31 1 ++ extract w 12 8 ++ extract w 20 1 ++ extract w 21 10 ++ 0#1)

/-- The decoder: total on all words, a function of the word alone (R51 to R55, R60 to R65). -/
def decode (w : Word) : DecodedInstruction :=
  let opcode := extract w 0 7
  let rd := extract w 7 5
  let funct3 := extract w 12 3
  let rs1 := extract w 15 5
  let rs2 := extract w 20 5
  let funct7 := extract w 25 7
  match classify opcode with
  | .r => ⟨.r, opcode, funct3, funct7, rd, rs1, rs2, 0, w⟩
  | .i => ⟨.i, opcode, funct3, funct7, rd, rs1, 0, immI w, w⟩
  | .s => ⟨.s, opcode, funct3, 0, 0, rs1, rs2, immS w, w⟩
  | .b => ⟨.b, opcode, funct3, 0, 0, rs1, rs2, immB w, w⟩
  | .u => ⟨.u, opcode, 0, 0, rd, 0, 0, immU w, w⟩
  | .j => ⟨.j, opcode, 0, 0, rd, 0, 0, immJ w, w⟩
  | .unknown => ⟨.unknown, opcode, 0, 0, 0, 0, 0, 0, w⟩

/-! ## The mnemonic resolver -/

/-- The resolver's output: the 38 operations and UNKNOWN (R70). -/
inductive OperationId where
  | add
  | sub
  | sll
  | slt
  | sltu
  | xor
  | srl
  | sra
  | or
  | and
  | addi
  | slti
  | sltiu
  | xori
  | ori
  | andi
  | slli
  | srli
  | srai
  | lb
  | lh
  | lw
  | lbu
  | lhu
  | sb
  | sh
  | sw
  | beq
  | bne
  | blt
  | bge
  | bltu
  | bgeu
  | jal
  | jalr
  | lui
  | auipc
  | ecall
  | unknown
  deriving DecidableEq, Repr

/-- Opcode 0110011, keyed by funct7 and funct3 (R72); the RV32M space is UNKNOWN (D2). -/
def resolveReg (funct7 : BitVec 7) (funct3 : BitVec 3) : OperationId :=
  if funct7 = 0b0000000#7 then
    if funct3 = 0b000#3 then .add
    else if funct3 = 0b001#3 then .sll
    else if funct3 = 0b010#3 then .slt
    else if funct3 = 0b011#3 then .sltu
    else if funct3 = 0b100#3 then .xor
    else if funct3 = 0b101#3 then .srl
    else if funct3 = 0b110#3 then .or
    else .and
  else if funct7 = 0b0100000#7 then
    if funct3 = 0b000#3 then .sub
    else if funct3 = 0b101#3 then .sra
    else .unknown
  else .unknown

/-- Opcode 0010011, keyed by funct3, the shift forms by funct7 as well (R73, R74). -/
def resolveImm (funct7 : BitVec 7) (funct3 : BitVec 3) : OperationId :=
  if funct3 = 0b000#3 then .addi
  else if funct3 = 0b010#3 then .slti
  else if funct3 = 0b011#3 then .sltiu
  else if funct3 = 0b100#3 then .xori
  else if funct3 = 0b110#3 then .ori
  else if funct3 = 0b111#3 then .andi
  else if funct3 = 0b001#3 then
    if funct7 = 0b0000000#7 then .slli else .unknown
  else
    if funct7 = 0b0000000#7 then .srli
    else if funct7 = 0b0100000#7 then .srai
    else .unknown

/-- Opcode 0000011 (R75). -/
def resolveLoad (funct3 : BitVec 3) : OperationId :=
  if funct3 = 0b000#3 then .lb
  else if funct3 = 0b001#3 then .lh
  else if funct3 = 0b010#3 then .lw
  else if funct3 = 0b100#3 then .lbu
  else if funct3 = 0b101#3 then .lhu
  else .unknown

/-- Opcode 0100011 (R76). -/
def resolveStore (funct3 : BitVec 3) : OperationId :=
  if funct3 = 0b000#3 then .sb
  else if funct3 = 0b001#3 then .sh
  else if funct3 = 0b010#3 then .sw
  else .unknown

/-- Opcode 1100011 (R77). -/
def resolveBranch (funct3 : BitVec 3) : OperationId :=
  if funct3 = 0b000#3 then .beq
  else if funct3 = 0b001#3 then .bne
  else if funct3 = 0b100#3 then .blt
  else if funct3 = 0b101#3 then .bge
  else if funct3 = 0b110#3 then .bltu
  else if funct3 = 0b111#3 then .bgeu
  else .unknown

/-- The resolver: a lookup keyed by the opcode and, per opcode, funct3, funct7 or the whole word (R71 to R81). -/
def mnemonic (d : DecodedInstruction) : OperationId :=
  if d.opcode = 0b0110011#7 then resolveReg d.funct7 d.funct3
  else if d.opcode = 0b0010011#7 then resolveImm d.funct7 d.funct3
  else if d.opcode = 0b0000011#7 then resolveLoad d.funct3
  else if d.opcode = 0b0100011#7 then resolveStore d.funct3
  else if d.opcode = 0b1100011#7 then resolveBranch d.funct3
  else if d.opcode = 0b1101111#7 then .jal
  else if d.opcode = 0b1100111#7 then if d.funct3 = 0b000#3 then .jalr else .unknown
  else if d.opcode = 0b0110111#7 then .lui
  else if d.opcode = 0b0010111#7 then .auipc
  else if d.opcode = 0b1110011#7 then if d.raw = 0x00000073#32 then .ecall else .unknown
  else .unknown

/-! ## From the record to the instruction -/

/-- A register field as a register number. -/
def regOf (field : BitVec 5) : RegIdx := field.toFin

/-- The instruction an operation makes of the record's fields; none for UNKNOWN. A shift takes `imm[4:0]` (R127). -/
def assemble (op : OperationId) (d : DecodedInstruction) : Option Instr :=
  match op with
  | .add => some (.add (regOf d.rd) (regOf d.rs1) (regOf d.rs2))
  | .sub => some (.sub (regOf d.rd) (regOf d.rs1) (regOf d.rs2))
  | .sll => some (.sll (regOf d.rd) (regOf d.rs1) (regOf d.rs2))
  | .slt => some (.slt (regOf d.rd) (regOf d.rs1) (regOf d.rs2))
  | .sltu => some (.sltu (regOf d.rd) (regOf d.rs1) (regOf d.rs2))
  | .xor => some (.xor (regOf d.rd) (regOf d.rs1) (regOf d.rs2))
  | .srl => some (.srl (regOf d.rd) (regOf d.rs1) (regOf d.rs2))
  | .sra => some (.sra (regOf d.rd) (regOf d.rs1) (regOf d.rs2))
  | .or => some (.or (regOf d.rd) (regOf d.rs1) (regOf d.rs2))
  | .and => some (.and (regOf d.rd) (regOf d.rs1) (regOf d.rs2))
  | .addi => some (.addi (regOf d.rd) (regOf d.rs1) d.imm)
  | .slti => some (.slti (regOf d.rd) (regOf d.rs1) d.imm)
  | .sltiu => some (.sltiu (regOf d.rd) (regOf d.rs1) d.imm)
  | .xori => some (.xori (regOf d.rd) (regOf d.rs1) d.imm)
  | .ori => some (.ori (regOf d.rd) (regOf d.rs1) d.imm)
  | .andi => some (.andi (regOf d.rd) (regOf d.rs1) d.imm)
  | .lb => some (.lb (regOf d.rd) (regOf d.rs1) d.imm)
  | .lh => some (.lh (regOf d.rd) (regOf d.rs1) d.imm)
  | .lw => some (.lw (regOf d.rd) (regOf d.rs1) d.imm)
  | .lbu => some (.lbu (regOf d.rd) (regOf d.rs1) d.imm)
  | .lhu => some (.lhu (regOf d.rd) (regOf d.rs1) d.imm)
  | .jalr => some (.jalr (regOf d.rd) (regOf d.rs1) d.imm)
  | .slli => some (.slli (regOf d.rd) (regOf d.rs1) (extract d.imm 0 5))
  | .srli => some (.srli (regOf d.rd) (regOf d.rs1) (extract d.imm 0 5))
  | .srai => some (.srai (regOf d.rd) (regOf d.rs1) (extract d.imm 0 5))
  | .sb => some (.sb (regOf d.rs1) (regOf d.rs2) d.imm)
  | .sh => some (.sh (regOf d.rs1) (regOf d.rs2) d.imm)
  | .sw => some (.sw (regOf d.rs1) (regOf d.rs2) d.imm)
  | .beq => some (.beq (regOf d.rs1) (regOf d.rs2) d.imm)
  | .bne => some (.bne (regOf d.rs1) (regOf d.rs2) d.imm)
  | .blt => some (.blt (regOf d.rs1) (regOf d.rs2) d.imm)
  | .bge => some (.bge (regOf d.rs1) (regOf d.rs2) d.imm)
  | .bltu => some (.bltu (regOf d.rs1) (regOf d.rs2) d.imm)
  | .bgeu => some (.bgeu (regOf d.rs1) (regOf d.rs2) d.imm)
  | .jal => some (.jal (regOf d.rd) d.imm)
  | .lui => some (.lui (regOf d.rd) d.imm)
  | .auipc => some (.auipc (regOf d.rd) d.imm)
  | .ecall => some .ecall
  | .unknown => none

/-- Why no instruction was read, by name (R81's two causes, and too few bytes to hold a word). -/
inductive DecodeReject where
  | unrecognisedOpcode (raw : Word)
  | unassignedFunction (raw : Word)
  | tooFewBytes
  deriving DecidableEq, Repr

/-- Decoder, resolver and operand selection of one word. -/
def decodeInstr (w : Word) : Except DecodeReject Instr :=
  match assemble (mnemonic (decode w)) (decode w) with
  | some i => .ok i
  | none => .error (if (decode w).format = .unknown then .unrecognisedOpcode w else .unassignedFunction w)

/-- The little-endian value of bytes, the first the least significant (R33, R35). -/
def leWord : List Byte → Word
  | [] => 0#32
  | b :: bs => b.setWidth 32 ||| (leWord bs <<< 8)

/-- The `n` lowest bytes of a word, the least significant first (R34, R35). -/
def leBytes : Nat → Word → List Byte
  | 0, _ => []
  | n + 1, v => v.extractLsb' 0 8 :: leBytes n (v >>> 8)

/-- The decoder over a byte stream: the instruction of the first four bytes (R50) and the bytes after it. -/
def decodeBytes : List Byte → Except DecodeReject (Instr × List Byte)
  | b0 :: b1 :: b2 :: b3 :: rest =>
    match decodeInstr (leWord [b0, b1, b2, b3]) with
    | .ok i => .ok (i, rest)
    | .error e => .error e
  | _ => .error .tooFewBytes

/-! ## The encoder -/

/-- The field of a register number. -/
def fieldOf (r : RegIdx) : BitVec 5 := BitVec.ofFin r

/-- The R layout, and the I-shift layout with the shift amount in the rs2 place. -/
def layoutR (funct7 : BitVec 7) (rs2 rs1 : BitVec 5) (funct3 : BitVec 3) (rd : BitVec 5) (opcode : BitVec 7) : Word :=
  funct7 ++ rs2 ++ rs1 ++ funct3 ++ rd ++ opcode

/-- The I layout: `word[31:20] = imm[11:0]` (R66). -/
def layoutI (imm : Word) (rs1 : BitVec 5) (funct3 : BitVec 3) (rd : BitVec 5) (opcode : BitVec 7) : Word :=
  extract imm 0 12 ++ rs1 ++ funct3 ++ rd ++ opcode

/-- The S layout: `word[31:25] = imm[11:5]`, `word[11:7] = imm[4:0]` (R66). -/
def layoutS (imm : Word) (rs2 rs1 : BitVec 5) (funct3 : BitVec 3) (opcode : BitVec 7) : Word :=
  extract imm 5 7 ++ rs2 ++ rs1 ++ funct3 ++ extract imm 0 5 ++ opcode

/-- The B layout: imm[12], imm[10:5] at the top, imm[4:1], imm[11] in the rd place (R66). -/
def layoutB (imm : Word) (rs2 rs1 : BitVec 5) (funct3 : BitVec 3) (opcode : BitVec 7) : Word :=
  extract imm 12 1 ++ extract imm 5 6 ++ rs2 ++ rs1 ++ funct3 ++ extract imm 1 4 ++ extract imm 11 1 ++ opcode

/-- The U layout: `word[31:12] = imm[31:12]` (R66). -/
def layoutU (imm : Word) (rd : BitVec 5) (opcode : BitVec 7) : Word :=
  extract imm 12 20 ++ rd ++ opcode

/-- The J layout: imm[20], imm[10:1], imm[11], imm[19:12] (R66). -/
def layoutJ (imm : Word) (rd : BitVec 5) (opcode : BitVec 7) : Word :=
  extract imm 20 1 ++ extract imm 1 10 ++ extract imm 11 1 ++ extract imm 12 8 ++ rd ++ opcode

/-- The word of an instruction (the layouts of 30_encoding.md section 2, the values of R53 and R72 to R80). -/
def encode : Instr → Word
  | .add rd rs1 rs2 => layoutR 0b0000000#7 (fieldOf rs2) (fieldOf rs1) 0b000#3 (fieldOf rd) 0b0110011#7
  | .sub rd rs1 rs2 => layoutR 0b0100000#7 (fieldOf rs2) (fieldOf rs1) 0b000#3 (fieldOf rd) 0b0110011#7
  | .sll rd rs1 rs2 => layoutR 0b0000000#7 (fieldOf rs2) (fieldOf rs1) 0b001#3 (fieldOf rd) 0b0110011#7
  | .slt rd rs1 rs2 => layoutR 0b0000000#7 (fieldOf rs2) (fieldOf rs1) 0b010#3 (fieldOf rd) 0b0110011#7
  | .sltu rd rs1 rs2 => layoutR 0b0000000#7 (fieldOf rs2) (fieldOf rs1) 0b011#3 (fieldOf rd) 0b0110011#7
  | .xor rd rs1 rs2 => layoutR 0b0000000#7 (fieldOf rs2) (fieldOf rs1) 0b100#3 (fieldOf rd) 0b0110011#7
  | .srl rd rs1 rs2 => layoutR 0b0000000#7 (fieldOf rs2) (fieldOf rs1) 0b101#3 (fieldOf rd) 0b0110011#7
  | .sra rd rs1 rs2 => layoutR 0b0100000#7 (fieldOf rs2) (fieldOf rs1) 0b101#3 (fieldOf rd) 0b0110011#7
  | .or rd rs1 rs2 => layoutR 0b0000000#7 (fieldOf rs2) (fieldOf rs1) 0b110#3 (fieldOf rd) 0b0110011#7
  | .and rd rs1 rs2 => layoutR 0b0000000#7 (fieldOf rs2) (fieldOf rs1) 0b111#3 (fieldOf rd) 0b0110011#7
  | .addi rd rs1 imm => layoutI imm (fieldOf rs1) 0b000#3 (fieldOf rd) 0b0010011#7
  | .slti rd rs1 imm => layoutI imm (fieldOf rs1) 0b010#3 (fieldOf rd) 0b0010011#7
  | .sltiu rd rs1 imm => layoutI imm (fieldOf rs1) 0b011#3 (fieldOf rd) 0b0010011#7
  | .xori rd rs1 imm => layoutI imm (fieldOf rs1) 0b100#3 (fieldOf rd) 0b0010011#7
  | .ori rd rs1 imm => layoutI imm (fieldOf rs1) 0b110#3 (fieldOf rd) 0b0010011#7
  | .andi rd rs1 imm => layoutI imm (fieldOf rs1) 0b111#3 (fieldOf rd) 0b0010011#7
  | .slli rd rs1 shamt => layoutR 0b0000000#7 shamt (fieldOf rs1) 0b001#3 (fieldOf rd) 0b0010011#7
  | .srli rd rs1 shamt => layoutR 0b0000000#7 shamt (fieldOf rs1) 0b101#3 (fieldOf rd) 0b0010011#7
  | .srai rd rs1 shamt => layoutR 0b0100000#7 shamt (fieldOf rs1) 0b101#3 (fieldOf rd) 0b0010011#7
  | .lb rd rs1 imm => layoutI imm (fieldOf rs1) 0b000#3 (fieldOf rd) 0b0000011#7
  | .lh rd rs1 imm => layoutI imm (fieldOf rs1) 0b001#3 (fieldOf rd) 0b0000011#7
  | .lw rd rs1 imm => layoutI imm (fieldOf rs1) 0b010#3 (fieldOf rd) 0b0000011#7
  | .lbu rd rs1 imm => layoutI imm (fieldOf rs1) 0b100#3 (fieldOf rd) 0b0000011#7
  | .lhu rd rs1 imm => layoutI imm (fieldOf rs1) 0b101#3 (fieldOf rd) 0b0000011#7
  | .sb rs1 rs2 imm => layoutS imm (fieldOf rs2) (fieldOf rs1) 0b000#3 0b0100011#7
  | .sh rs1 rs2 imm => layoutS imm (fieldOf rs2) (fieldOf rs1) 0b001#3 0b0100011#7
  | .sw rs1 rs2 imm => layoutS imm (fieldOf rs2) (fieldOf rs1) 0b010#3 0b0100011#7
  | .beq rs1 rs2 imm => layoutB imm (fieldOf rs2) (fieldOf rs1) 0b000#3 0b1100011#7
  | .bne rs1 rs2 imm => layoutB imm (fieldOf rs2) (fieldOf rs1) 0b001#3 0b1100011#7
  | .blt rs1 rs2 imm => layoutB imm (fieldOf rs2) (fieldOf rs1) 0b100#3 0b1100011#7
  | .bge rs1 rs2 imm => layoutB imm (fieldOf rs2) (fieldOf rs1) 0b101#3 0b1100011#7
  | .bltu rs1 rs2 imm => layoutB imm (fieldOf rs2) (fieldOf rs1) 0b110#3 0b1100011#7
  | .bgeu rs1 rs2 imm => layoutB imm (fieldOf rs2) (fieldOf rs1) 0b111#3 0b1100011#7
  | .jal rd imm => layoutJ imm (fieldOf rd) 0b1101111#7
  | .jalr rd rs1 imm => layoutI imm (fieldOf rs1) 0b000#3 (fieldOf rd) 0b1100111#7
  | .lui rd imm => layoutU imm (fieldOf rd) 0b0110111#7
  | .auipc rd imm => layoutU imm (fieldOf rd) 0b0010111#7
  | .ecall => 0x00000073#32

/-- The operation an instruction is. -/
def Instr.operation : Instr → OperationId
  | .add _ _ _ => .add
  | .sub _ _ _ => .sub
  | .sll _ _ _ => .sll
  | .slt _ _ _ => .slt
  | .sltu _ _ _ => .sltu
  | .xor _ _ _ => .xor
  | .srl _ _ _ => .srl
  | .sra _ _ _ => .sra
  | .or _ _ _ => .or
  | .and _ _ _ => .and
  | .addi _ _ _ => .addi
  | .slti _ _ _ => .slti
  | .sltiu _ _ _ => .sltiu
  | .xori _ _ _ => .xori
  | .ori _ _ _ => .ori
  | .andi _ _ _ => .andi
  | .slli _ _ _ => .slli
  | .srli _ _ _ => .srli
  | .srai _ _ _ => .srai
  | .lb _ _ _ => .lb
  | .lh _ _ _ => .lh
  | .lw _ _ _ => .lw
  | .lbu _ _ _ => .lbu
  | .lhu _ _ _ => .lhu
  | .sb _ _ _ => .sb
  | .sh _ _ _ => .sh
  | .sw _ _ _ => .sw
  | .beq _ _ _ => .beq
  | .bne _ _ _ => .bne
  | .blt _ _ _ => .blt
  | .bge _ _ _ => .bge
  | .bltu _ _ _ => .bltu
  | .bgeu _ _ _ => .bgeu
  | .jal _ _ => .jal
  | .jalr _ _ _ => .jalr
  | .lui _ _ => .lui
  | .auipc _ _ => .auipc
  | .ecall => .ecall

/-! ## The opcode table -/

/-- One row of spec/opcode_table.json: the operation's words are those `w` with `w &&& mask = pattern`. -/
structure TableRow where
  op : OperationId
  pattern : Word
  mask : Word
  deriving DecidableEq, Repr

/-- The table's rows ADD to AND. -/
def tableReg : List TableRow :=
  [⟨.add, 0x00000033#32, 0xFE00707F#32⟩,
   ⟨.sub, 0x40000033#32, 0xFE00707F#32⟩,
   ⟨.sll, 0x00001033#32, 0xFE00707F#32⟩,
   ⟨.slt, 0x00002033#32, 0xFE00707F#32⟩,
   ⟨.sltu, 0x00003033#32, 0xFE00707F#32⟩,
   ⟨.xor, 0x00004033#32, 0xFE00707F#32⟩,
   ⟨.srl, 0x00005033#32, 0xFE00707F#32⟩,
   ⟨.sra, 0x40005033#32, 0xFE00707F#32⟩,
   ⟨.or, 0x00006033#32, 0xFE00707F#32⟩,
   ⟨.and, 0x00007033#32, 0xFE00707F#32⟩]

/-- The table's rows ADDI to SRAI. -/
def tableImm : List TableRow :=
  [⟨.addi, 0x00000013#32, 0x0000707F#32⟩,
   ⟨.slti, 0x00002013#32, 0x0000707F#32⟩,
   ⟨.sltiu, 0x00003013#32, 0x0000707F#32⟩,
   ⟨.xori, 0x00004013#32, 0x0000707F#32⟩,
   ⟨.ori, 0x00006013#32, 0x0000707F#32⟩,
   ⟨.andi, 0x00007013#32, 0x0000707F#32⟩,
   ⟨.slli, 0x00001013#32, 0xFE00707F#32⟩,
   ⟨.srli, 0x00005013#32, 0xFE00707F#32⟩,
   ⟨.srai, 0x40005013#32, 0xFE00707F#32⟩]

/-- The table's rows LB to SW. -/
def tableMemory : List TableRow :=
  [⟨.lb, 0x00000003#32, 0x0000707F#32⟩,
   ⟨.lh, 0x00001003#32, 0x0000707F#32⟩,
   ⟨.lw, 0x00002003#32, 0x0000707F#32⟩,
   ⟨.lbu, 0x00004003#32, 0x0000707F#32⟩,
   ⟨.lhu, 0x00005003#32, 0x0000707F#32⟩,
   ⟨.sb, 0x00000023#32, 0x0000707F#32⟩,
   ⟨.sh, 0x00001023#32, 0x0000707F#32⟩,
   ⟨.sw, 0x00002023#32, 0x0000707F#32⟩]

/-- The table's rows BEQ to ECALL. -/
def tableControl : List TableRow :=
  [⟨.beq, 0x00000063#32, 0x0000707F#32⟩,
   ⟨.bne, 0x00001063#32, 0x0000707F#32⟩,
   ⟨.blt, 0x00004063#32, 0x0000707F#32⟩,
   ⟨.bge, 0x00005063#32, 0x0000707F#32⟩,
   ⟨.bltu, 0x00006063#32, 0x0000707F#32⟩,
   ⟨.bgeu, 0x00007063#32, 0x0000707F#32⟩,
   ⟨.jal, 0x0000006F#32, 0x0000007F#32⟩,
   ⟨.jalr, 0x00000067#32, 0x0000707F#32⟩,
   ⟨.lui, 0x00000037#32, 0x0000007F#32⟩,
   ⟨.auipc, 0x00000017#32, 0x0000007F#32⟩,
   ⟨.ecall, 0x00000073#32, 0xFFFFFFFF#32⟩]

/-- The whole table, in its order. -/
def opcodeTable : List TableRow := tableReg ++ (tableImm ++ (tableMemory ++ tableControl))

/-! ## The host's entry -/

/-- The instruction the decoder reads from a table row's word: its bytes as the hardware stores them, least significant
first (R35), every bit above `nbits` zero. -/
def decodeTableWord (nbits w : Nat) : Option Instr :=
  match decodeBytes (leBytes 4 (BitVec.ofNat 32 (w % 2 ^ nbits))) with
  | .ok (i, _) => some i
  | .error _ => none

end Sys2Proof
end

