-- ==== Sys2Proof/Machine/Operands.lean ====
section
/-! DEFINITION. The ALU, the effective address, the load extensions and the PC calculator: the combinational blocks on
the operands of an instruction (spec/40_alu_reg.md R100 to R103, spec/42_load.md R141, spec/50_datapath_and_step.md
R205, R206). -/

namespace Sys2Proof.Machine

/-- The functions of the ALU (R100). -/
inductive AluFn where
  | add | sub | sll | slt | sltu | xor | srl | sra | or | and
  deriving DecidableEq, Repr

/-- The shift amount is `b[4:0]` (R101, R103, D18). -/
def shiftAmount (b : Word) : Nat := (extract b 0 5).toNat

/-- `alu(fn, a, b)` (R101): total, no flag, no exception. -/
def alu (fn : AluFn) (a b : Word) : Word :=
  match fn with
  | .add => a + b
  | .sub => a - b
  | .sll => a <<< shiftAmount b
  | .slt => if a.slt b then 1#32 else 0#32
  | .sltu => if a.ult b then 1#32 else 0#32
  | .xor => a ^^^ b
  | .srl => a >>> shiftAmount b
  | .sra => a.sshiftRight (shiftAmount b)
  | .or => a ||| b
  | .and => a &&& b

/-- The second operand of an immediate shift: `imm[4:0]` (R121, R127). -/
def shamtOperand (shamt : BitVec 5) : Word := zext 5 shamt

/-- Base plus displacement modulo 2^32 (R141, R151, D26). -/
def effectiveAddress (base imm : Word) : Word := base + imm

/-! ## The PC calculator -/

/-- The candidate next PC, which is also the link value (R206, R170). -/
def candidatePc (pc : Word) : Word := pc + 4#32

/-- Target of a taken branch and of JAL: from the instruction's own address (R161, R172). -/
def branchTarget (pc imm : Word) : Word := pc + imm

/-- Target of JALR: bit 0 of the sum cleared, bit 1 kept (R173). -/
def jalrTarget (base imm : Word) : Word := (base + imm) &&& 0xFFFFFFFE#32

/-- The PC calculator (R206): next pc and link from the operation, pc, immediate, `x[rs1]` and taken. -/
def pcCalculator (op : OperationId) (pc imm rs1 : Word) (taken : Bool) : Word × Word :=
  let candidate := candidatePc pc
  match op with
  | .jal => (branchTarget pc imm, candidate)
  | .jalr => (jalrTarget rs1 imm, candidate)
  | .beq | .bne | .blt | .bge | .bltu | .bgeu => (if taken then branchTarget pc imm else candidate, candidate)
  | _ => (candidate, candidate)

end Sys2Proof.Machine
end

