-- ==== Sys2Proof/Machine/State.lean ====
section
/-! DEFINITION. The state of the machine as plain data, the reasons it stops, and the state after reset
(spec/10_state.md, spec/60_exceptions.md R230, spec/70_reset_and_hazards.md R260, spec/00_scope.md R5). -/

namespace Sys2Proof.Machine

/-- Why a run is over (R230), with what the halt reports. An enumeration by D23. -/
inductive HaltReason where
  /-- ECALL with x17 = 3 or 93 (R194): the one successful end. -/
  | exit
  /-- A word that resolves to UNKNOWN (R196): reports its address and the raw word. -/
  | unknownInstruction (pc raw : Word)
  /-- ECALL with any other code (R195); the code is x17. -/
  | unsupportedSyscall
  /-- The memory component signals a failure (R234). -/
  | memoryFault
  /-- The budget is used up, found between steps (R236). -/
  | budgetExceeded
  /-- A step would begin at a pc that is not a multiple of 4 (R235): reports that pc. -/
  | pcMisaligned (pc : Word)
  deriving DecidableEq, Repr

/-- The run state (R20). -/
inductive RunState where
  | running
  | halted (reason : HaltReason)
  deriving DecidableEq, Repr

/-- The kinds of access the core issues to memory (R32). -/
inductive AccessKind where
  | fetch | load | store
  deriving DecidableEq, Repr

/-- One clause of the environment's predicate `MemFault(addr, n, kind)` (R5, R31, log entry 3): accesses of this kind
and width at an address from `first` to `last` fail, all of them or only the misaligned ones. -/
structure FaultRule where
  kind : AccessKind
  bytes : Nat
  first : Word
  last : Word
  misalignedOnly : Bool
  deriving DecidableEq, Repr

/-- One value of the host input stream (R5, R192, log entry 5): a character, delivered zero-extended, or any 32-bit
value the input oracle supplies. -/
inductive HostValue where
  | char (c : Byte)
  | draw (v : Word)
  deriving DecidableEq, Repr

/-- The populated bytes, addresses strictly rising (R30: a partial map from address to byte; log entry 2). An address
that is not listed holds no byte. -/
abbrev Memory := List Host.Cell

/-- The state: of the core its registers, pc, run state and instret; of the environment the memory, the host streams
and the run's arguments (R5), which no step changes. -/
structure State where
  regs : Vector Word 31
  pc : Word
  run : RunState
  instret : Nat
  mem : Memory
  hostIn : List HostValue
  hostOut : List Byte
  memRules : List FaultRule
  hostInEnded : Bool
  getcharEof : Word
  budget : Option Nat
  deriving DecidableEq, Repr

/-- Why a step has no next state. -/
inductive Fault where
  /-- Raised by `step` from a state that is already halted (R20, D8: no step is taken from it). Safe: nothing runs on. -/
  | halted (reason : HaltReason)
  /-- Raised by ECALL code 1 when no value is there and the stream has not ended (R192, U13: the step does not complete
  until one arrives). Safe: the model stops where the hardware waits. -/
  | inputBlocked
  deriving DecidableEq, Repr

/-- Why an instruction has no meaning. -/
inductive Refusal where
  /-- Raised by an arm of `exec` whose instruction has no meaning yet; no arm raises it now. Safe. -/
  | notModelled (mnemonic : String)
  deriving DecidableEq, Repr

/-- The arguments of a run (R5): what the caller and the environment supply. -/
structure RunArgs where
  startPc : Word
  budget : Option Nat
  image : Memory
  memRules : List FaultRule
  input : List HostValue
  inputEnded : Bool
  getcharEof : Word
  deriving DecidableEq, Repr

/-- The reset state of a run with these arguments (R260). -/
def State.resetWith (a : RunArgs) : State where
  regs := Vector.replicate 31 0#32
  pc := a.startPc
  run := .running
  instret := 0
  mem := a.image
  hostIn := a.input
  hostOut := []
  memRules := a.memRules
  hostInEnded := a.inputEnded
  getcharEof := a.getcharEof
  budget := a.budget

/-- The arguments of `State.reset`. DESIGN CHOICE (log entry 1), unsafe: start address 0, no budget, an empty image, no
fault rule, an empty input stream that has ended. -/
def RunArgs.default : RunArgs where
  startPc := Config.defaultStartPc
  budget := Config.defaultBudget
  image := []
  memRules := []
  input := []
  inputEnded := true
  getcharEof := Config.defaultGetcharEof

/-- The machine right after reset, with the default arguments. -/
def State.reset : State := State.resetWith RunArgs.default

end Sys2Proof.Machine
end

