-- ==== Sys2Proof/Machine/Ops.lean ====
section
/-! DEFINITION. The named operations over registers, memory, the host streams and the run state
(spec/10_state.md, spec/20_memory.md, spec/47_system.md, spec/60_exceptions.md). -/

namespace Sys2Proof.Machine

/-! ## Registers -/

/-- Read port (R11, R204): x0 reads zero. -/
def State.readReg (s : State) (r : RegIdx) : Word :=
  if h : r = 0 then 0#32 else s.regs[r.val - 1]'(by omega)

/-- Write port (R12, R204): a write to x0 is discarded. -/
def State.writeReg (s : State) (r : RegIdx) (v : Word) : State :=
  { s with regs := if h : r = 0 then s.regs else s.regs.set (r.val - 1) v (by omega) }

/-! ## Memory as a partial map -/

/-- The byte at an address, none where no byte is populated (R30). -/
def Memory.readByte : Memory → Nat → Option Byte
  | [], _ => none
  | (k, v) :: rest, a => if a = k then some v else Memory.readByte rest a

/-- The memory with one byte set, the addresses still strictly rising. -/
def Memory.writeByte : Memory → Nat → Byte → Memory
  | [], a, b => [(a, b)]
  | (k, v) :: rest, a, b =>
    if a < k then (a, b) :: (k, v) :: rest
    else if a = k then (a, b) :: rest
    else (k, v) :: Memory.writeByte rest a b

/-- The addresses are strictly rising from `lo` on, all of them 32-bit. -/
def Memory.risingFrom : Nat → Memory → Bool
  | _, [] => true
  | lo, (k, _) :: rest => decide (lo ≤ k) && decide (k < Config.addressCount) && Memory.risingFrom (k + 1) rest

/-- The canonical form: strictly rising 32-bit addresses. An unlisted address holds no byte, so no entry can equal it. -/
def Memory.wf (m : Memory) : Bool := Memory.risingFrom 0 m

/-- The `n` bytes from an address on, lowest first, addresses modulo 2^32 (R33, D26); none if one is not populated. -/
def Memory.bytesAt (m : Memory) (addr : Word) : Nat → Option (List Byte)
  | 0 => some []
  | n + 1 =>
    match Memory.readByte m addr.toNat, Memory.bytesAt m (addr + 1#32) n with
    | some b, some bs => some (b :: bs)
    | _, _ => none

/-- The memory with bytes set from an address on, lowest first, addresses modulo 2^32 (R34, D26). -/
def Memory.writeBytes (m : Memory) (addr : Word) : List Byte → Memory
  | [] => m
  | b :: bs => Memory.writeBytes (Memory.writeByte m addr.toNat b) (addr + 1#32) bs

/-! ## The memory interface of the core -/

/-- The byte at a 32-bit address. -/
def State.byteAt (s : State) (addr : Word) : Option Byte := Memory.readByte s.mem addr.toNat

/-- The clause refuses this access. -/
def FaultRule.applies (f : FaultRule) (addr : Word) (n : Nat) (kind : AccessKind) : Bool :=
  decide (f.kind = kind) && decide (f.bytes = n) && decide (f.first ≤ addr) && decide (addr ≤ f.last)
    && (!f.misalignedOnly || decide (addr.toNat % n ≠ 0))

/-- `MemFault(addr, n, kind)` (R5, R31, D11): a byte of the access is not populated, or a rule of the environment
refuses it. -/
def State.memFault (s : State) (addr : Word) (n : Nat) (kind : AccessKind) : Bool :=
  (Memory.bytesAt s.mem addr n).isNone || s.memRules.any (fun f => f.applies addr n kind)

/-- `MemRead(addr, n)` (R33), the value zero-extended; none where the memory signals a failure. -/
def State.memRead (s : State) (addr : Word) (n : Nat) (kind : AccessKind) : Option Word :=
  if s.memFault addr n kind then none else (Memory.bytesAt s.mem addr n).map leWord

/-- `MemWrite(addr, n, v)` (R34): all n bytes or, where the memory signals a failure, none of them (D16). -/
def State.memWrite (s : State) (addr : Word) (n : Nat) (v : Word) : Option State :=
  if s.memFault addr n .store then none
  else some { s with mem := Memory.writeBytes s.mem addr (leBytes n v) }

/-! ## Commit and halt -/

/-- Commit without a register write: next pc and instret (R215). -/
def State.retire (s : State) (nextPc : Word) : State :=
  { s with pc := nextPc, instret := s.instret + 1 }

/-- Commit with the register write of the step (R215). -/
def State.commit (s : State) (rd : RegIdx) (v : Word) (nextPc : Word) : State :=
  (s.writeReg rd v).retire nextPc

/-- `raise Halt(reason)` (R231): the machine's only exception. Nothing is saved, no mode changes and no handler is
entered (R239); everything but the run state keeps its value. There is no return from it (R240). -/
def State.halt (s : State) (reason : HaltReason) : State :=
  { s with run := .halted reason }

/-- The clean exit (R194, R231): instret counts the terminating ECALL and nothing else changes. -/
def State.haltExit (s : State) : State :=
  { s.halt .exit with instret := s.instret + 1 }

/-! ## Host character streams -/

/-- What getchar delivers for a value of the stream (R192, D14). -/
def HostValue.delivered : HostValue → Word
  | .char c => zext 8 c
  | .draw v => v

/-- `HostGetChar()` (R192): the next value and the stream after it, GETCHAR_EOF once the stream has ended, none while
it may still deliver (U13). -/
def State.hostGetChar (s : State) : Option (Word × State) :=
  match s.hostIn with
  | v :: rest => some (v.delivered, { s with hostIn := rest })
  | [] => if s.hostInEnded then some (s.getcharEof, s) else none

/-- `HostPutChar(b)` (R193): appended in program order. -/
def State.hostPutChar (s : State) (b : Byte) : State :=
  { s with hostOut := s.hostOut ++ [b] }

/-! ## What the sequencer tests before an instruction runs -/

/-- STEP_BUDGET = n and instret ≥ n (R211, R236, D13). -/
def State.budgetReached (s : State) : Bool :=
  match s.budget with
  | none => false
  | some n => decide (n ≤ s.instret)

/-- pc[1:0] = 00 (R17, R211). -/
def pcAligned (pc : Word) : Bool := decide (extract pc 0 2 = 0b00#2)

/-- Fetch the word at pc (R212). -/
def State.fetch (s : State) : Option Word := s.memRead s.pc 4 .fetch

end Sys2Proof.Machine
end

