-- ==== Sys2Proof/Machine/AluImm.lean ====
section
/-! DEFINITION. The arithmetic-immediate instructions (spec/41_alu_imm.md). -/

namespace Sys2Proof.Machine

/-- The template of R120, the second operand the immediate of R121. -/
def aluImm (fn : AluFn) (rd rs1 : RegIdx) (operand : Word) (s : State) : Host.Outcome State Fault Refusal :=
  .next (s.commit rd (alu fn (s.readReg rs1) operand) (candidatePc s.pc))

/-- ADDI (R122). -/
def execAddi (rd rs1 : RegIdx) (imm : Word) (s : State) : Host.Outcome State Fault Refusal :=
  aluImm .add rd rs1 imm s

/-- SLTI (R123). -/
def execSlti (rd rs1 : RegIdx) (imm : Word) (s : State) : Host.Outcome State Fault Refusal :=
  aluImm .slt rd rs1 imm s

/-- SLTIU (R124). -/
def execSltiu (rd rs1 : RegIdx) (imm : Word) (s : State) : Host.Outcome State Fault Refusal :=
  aluImm .sltu rd rs1 imm s

/-- XORI (R125). -/
def execXori (rd rs1 : RegIdx) (imm : Word) (s : State) : Host.Outcome State Fault Refusal :=
  aluImm .xor rd rs1 imm s

/-- ORI (R126). -/
def execOri (rd rs1 : RegIdx) (imm : Word) (s : State) : Host.Outcome State Fault Refusal :=
  aluImm .or rd rs1 imm s

/-- ANDI (R126). -/
def execAndi (rd rs1 : RegIdx) (imm : Word) (s : State) : Host.Outcome State Fault Refusal :=
  aluImm .and rd rs1 imm s

/-- SLLI (R128, R127). -/
def execSlli (rd rs1 : RegIdx) (shamt : BitVec 5) (s : State) : Host.Outcome State Fault Refusal :=
  aluImm .sll rd rs1 (shamtOperand shamt) s

/-- SRLI (R129, R127). -/
def execSrli (rd rs1 : RegIdx) (shamt : BitVec 5) (s : State) : Host.Outcome State Fault Refusal :=
  aluImm .srl rd rs1 (shamtOperand shamt) s

/-- SRAI (R130, R127). -/
def execSrai (rd rs1 : RegIdx) (shamt : BitVec 5) (s : State) : Host.Outcome State Fault Refusal :=
  aluImm .sra rd rs1 (shamtOperand shamt) s

end Sys2Proof.Machine
end

