-- ==== Sys2Proof/Machine/AluReg.lean ====
section
/-! DEFINITION. The register-register instructions (spec/40_alu_reg.md). -/

namespace Sys2Proof.Machine

/-- The template of R104: both operands are read before rd is written (R13). -/
def aluReg (fn : AluFn) (rd rs1 rs2 : RegIdx) (s : State) : Host.Outcome State Fault Refusal :=
  .next (s.commit rd (alu fn (s.readReg rs1) (s.readReg rs2)) (candidatePc s.pc))

/-- ADD (R105). -/
def execAdd (rd rs1 rs2 : RegIdx) (s : State) : Host.Outcome State Fault Refusal :=
  aluReg .add rd rs1 rs2 s

/-- SUB (R106). -/
def execSub (rd rs1 rs2 : RegIdx) (s : State) : Host.Outcome State Fault Refusal :=
  aluReg .sub rd rs1 rs2 s

/-- SLL (R107). -/
def execSll (rd rs1 rs2 : RegIdx) (s : State) : Host.Outcome State Fault Refusal :=
  aluReg .sll rd rs1 rs2 s

/-- SLT (R108). -/
def execSlt (rd rs1 rs2 : RegIdx) (s : State) : Host.Outcome State Fault Refusal :=
  aluReg .slt rd rs1 rs2 s

/-- SLTU (R109). -/
def execSltu (rd rs1 rs2 : RegIdx) (s : State) : Host.Outcome State Fault Refusal :=
  aluReg .sltu rd rs1 rs2 s

/-- XOR (R110). -/
def execXor (rd rs1 rs2 : RegIdx) (s : State) : Host.Outcome State Fault Refusal :=
  aluReg .xor rd rs1 rs2 s

/-- SRL (R111). -/
def execSrl (rd rs1 rs2 : RegIdx) (s : State) : Host.Outcome State Fault Refusal :=
  aluReg .srl rd rs1 rs2 s

/-- SRA (R112). -/
def execSra (rd rs1 rs2 : RegIdx) (s : State) : Host.Outcome State Fault Refusal :=
  aluReg .sra rd rs1 rs2 s

/-- OR (R113). -/
def execOr (rd rs1 rs2 : RegIdx) (s : State) : Host.Outcome State Fault Refusal :=
  aluReg .or rd rs1 rs2 s

/-- AND (R114). -/
def execAnd (rd rs1 rs2 : RegIdx) (s : State) : Host.Outcome State Fault Refusal :=
  aluReg .and rd rs1 rs2 s

end Sys2Proof.Machine
end

