-- ==== Sys2Proof/Machine/Flags.lean ====
section
/-! DEFINITION. The comparator. The machine has no status flags and no condition codes (spec/10_state.md R21): a
comparison is consumed at once by the branch that makes it (spec/44_branch.md R162). -/

namespace Sys2Proof.Machine

/-- The six branch conditions (R162). -/
inductive Condition where
  | eq | ne | lt | ge | ltu | geu
  deriving DecidableEq, Repr

/-- `COND(a, b)` (R162). -/
def Condition.holds (c : Condition) (a b : Word) : Bool :=
  match c with
  | .eq => a == b
  | .ne => a != b
  | .lt => a.slt b
  | .ge => !a.slt b
  | .ltu => a.ult b
  | .geu => !a.ult b

end Sys2Proof.Machine
end

