-- ==== Sys2Proof/Machine/Branch.lean ====
section
/-! DEFINITION. The conditional branches (spec/44_branch.md). -/

namespace Sys2Proof.Machine

/-- The template of R160: no register is written; a misaligned target is committed as computed (R164). -/
def branchOn (c : Condition) (rs1 rs2 : RegIdx) (imm : Word) (s : State) : Host.Outcome State Fault Refusal :=
  .next (s.retire (if c.holds (s.readReg rs1) (s.readReg rs2) then branchTarget s.pc imm else candidatePc s.pc))

/-- BEQ (R166). -/
def execBeq (rs1 rs2 : RegIdx) (imm : Word) (s : State) : Host.Outcome State Fault Refusal :=
  branchOn .eq rs1 rs2 imm s

/-- BNE (R167). -/
def execBne (rs1 rs2 : RegIdx) (imm : Word) (s : State) : Host.Outcome State Fault Refusal :=
  branchOn .ne rs1 rs2 imm s

/-- BLT (R168). -/
def execBlt (rs1 rs2 : RegIdx) (imm : Word) (s : State) : Host.Outcome State Fault Refusal :=
  branchOn .lt rs1 rs2 imm s

/-- BGE (R168). -/
def execBge (rs1 rs2 : RegIdx) (imm : Word) (s : State) : Host.Outcome State Fault Refusal :=
  branchOn .ge rs1 rs2 imm s

/-- BLTU (R169). -/
def execBltu (rs1 rs2 : RegIdx) (imm : Word) (s : State) : Host.Outcome State Fault Refusal :=
  branchOn .ltu rs1 rs2 imm s

/-- BGEU (R169). -/
def execBgeu (rs1 rs2 : RegIdx) (imm : Word) (s : State) : Host.Outcome State Fault Refusal :=
  branchOn .geu rs1 rs2 imm s

end Sys2Proof.Machine
end

