-- ==== Sys2Proof/Machine/Jump.lean ====
section
/-! DEFINITION. The jumps JAL and JALR (spec/45_jump.md). -/

namespace Sys2Proof.Machine

/-- JAL (R172): link, then the target from the instruction's own address. -/
def execJal (rd : RegIdx) (imm : Word) (s : State) : Host.Outcome State Fault Refusal :=
  .next (s.commit rd (candidatePc s.pc) (branchTarget s.pc imm))

/-- JALR (R173): the target uses `x[rs1]` as it was before the link write (R174, D17). -/
def execJalr (rd rs1 : RegIdx) (imm : Word) (s : State) : Host.Outcome State Fault Refusal :=
  .next (s.commit rd (candidatePc s.pc) (jalrTarget (s.readReg rs1) imm))

end Sys2Proof.Machine
end

