-- ==== Sys2Proof/Machine/Load.lean ====
section
/-! DEFINITION. The loads (spec/42_load.md). -/

namespace Sys2Proof.Machine

/-- The template of R140: `n` bytes at `x[rs1] + imm`, extended into rd. A failing access halts with memory_fault and
commits nothing (R143); with rd = x0 the read is still performed (R144). -/
def loadWith (n : Nat) (ext : Word → Word) (rd rs1 : RegIdx) (imm : Word) (s : State) : Host.Outcome State Fault Refusal :=
  match s.memRead (effectiveAddress (s.readReg rs1) imm) n .load with
  | none => .next (s.halt .memoryFault)
  | some v => .next (s.commit rd (ext v) (candidatePc s.pc))

/-- LB (R145, R142). -/
def execLb (rd rs1 : RegIdx) (imm : Word) (s : State) : Host.Outcome State Fault Refusal :=
  loadWith 1 (sext 8) rd rs1 imm s

/-- LH (R146, R142). -/
def execLh (rd rs1 : RegIdx) (imm : Word) (s : State) : Host.Outcome State Fault Refusal :=
  loadWith 2 (sext 16) rd rs1 imm s

/-- LW (R147, R142). -/
def execLw (rd rs1 : RegIdx) (imm : Word) (s : State) : Host.Outcome State Fault Refusal :=
  loadWith 4 id rd rs1 imm s

/-- LBU (R148, R142). -/
def execLbu (rd rs1 : RegIdx) (imm : Word) (s : State) : Host.Outcome State Fault Refusal :=
  loadWith 1 (zext 8) rd rs1 imm s

/-- LHU (R149, R142). -/
def execLhu (rd rs1 : RegIdx) (imm : Word) (s : State) : Host.Outcome State Fault Refusal :=
  loadWith 2 (zext 16) rd rs1 imm s

end Sys2Proof.Machine
end

