-- ==== Sys2Proof/Machine/Store.lean ====
section
/-! DEFINITION. The stores (spec/43_store.md). -/

namespace Sys2Proof.Machine

/-- The template of R150: the low `n` bytes of `x[rs2]` to `x[rs1] + imm`. A failing access halts with memory_fault,
no byte is written (R153). -/
def storeWith (n : Nat) (rs1 rs2 : RegIdx) (imm : Word) (s : State) : Host.Outcome State Fault Refusal :=
  match s.memWrite (effectiveAddress (s.readReg rs1) imm) n (s.readReg rs2) with
  | none => .next (s.halt .memoryFault)
  | some t => .next (t.retire (candidatePc s.pc))

/-- SB (R155, R152). -/
def execSb (rs1 rs2 : RegIdx) (imm : Word) (s : State) : Host.Outcome State Fault Refusal :=
  storeWith 1 rs1 rs2 imm s

/-- SH (R156, R152). -/
def execSh (rs1 rs2 : RegIdx) (imm : Word) (s : State) : Host.Outcome State Fault Refusal :=
  storeWith 2 rs1 rs2 imm s

/-- SW (R157, R152). -/
def execSw (rs1 rs2 : RegIdx) (imm : Word) (s : State) : Host.Outcome State Fault Refusal :=
  storeWith 4 rs1 rs2 imm s

end Sys2Proof.Machine
end

