-- ==== Sys2Proof/Machine/System.lean ====
section
/-! DEFINITION. ECALL (spec/47_system.md). -/

namespace Sys2Proof.Machine

/-- Code 1, getchar (R192): x10 takes the value; the step has no completion while none is there (U13). -/
def ecallGetChar (s : State) : Host.Outcome State Fault Refusal :=
  match s.hostGetChar with
  | some (v, t) => .next (t.commit 10 v (candidatePc s.pc))
  | none => .fault .inputBlocked

/-- Code 2, putchar (R193): the low byte of x10; no register is written. -/
def ecallPutChar (s : State) : Host.Outcome State Fault Refusal :=
  .next ((s.hostPutChar (extract (s.readReg 10) 0 8)).retire (candidatePc s.pc))

/-- ECALL (R190, R191): the service is selected by all 32 bits of x17; 3 and 93 exit (R194), any code without a service
halts (R195). -/
def execEcall (s : State) : Host.Outcome State Fault Refusal :=
  let code := s.readReg 17
  if code = 1#32 then ecallGetChar s
  else if code = 2#32 then ecallPutChar s
  else if code = 3#32 ∨ code = 93#32 then .next s.haltExit
  else .next (s.halt .unsupportedSyscall)

end Sys2Proof.Machine
end

