-- ==== Sys2Proof/Machine/Upper.lean ====
section
/-! DEFINITION. The upper-immediate instructions LUI and AUIPC (spec/46_upper.md). -/

namespace Sys2Proof.Machine

/-- LUI (R181): the immediate is already shifted (R180). -/
def execLui (rd : RegIdx) (imm : Word) (s : State) : Host.Outcome State Fault Refusal :=
  .next (s.commit rd imm (candidatePc s.pc))

/-- AUIPC (R182): added to the instruction's own address. -/
def execAuipc (rd : RegIdx) (imm : Word) (s : State) : Host.Outcome State Fault Refusal :=
  .next (s.commit rd (s.pc + imm) (candidatePc s.pc))

end Sys2Proof.Machine
end

