-- ==== Sys2Proof/Machine/Sequencer.lean ====
section
/-! DEFINITION. The sequencer: the substeps of one step in their order (spec/50_datapath_and_step.md R210 to R214,
spec/60_exceptions.md R237). -/

namespace Sys2Proof.Machine

/-- Substep 3 and 4 (R213, R214): the fetched word is decoded and resolved; an UNKNOWN word halts with its address and
the raw word (R196), any other is executed. -/
def runWord (w : Word) (s : State) : Host.Outcome State Fault Refusal :=
  match decodeInstr w with
  | .ok i => exec i s
  | .error _ => .next (s.halt (.unknownInstruction s.pc w))

/-- A step taken in state Running: budget, alignment, fetch, then the word; the first that raises ends the step (R211,
R212, R237). -/
def sequenceStep (s : State) : Host.Outcome State Fault Refusal :=
  if s.budgetReached then .next (s.halt .budgetExceeded)
  else if pcAligned s.pc = false then .next (s.halt (.pcMisaligned s.pc))
  else
    match s.fetch with
    | none => .next (s.halt .memoryFault)
    | some w => runWord w s

end Sys2Proof.Machine
end

