-- ==== Sys2Proof/Machine/Step.lean ====
section
/-! DEFINITION. One step (spec/50_datapath_and_step.md R210), and the host's way to place the word the next step fetches. -/

namespace Sys2Proof.Machine

/-- One step: none is taken from a halted state (R20, R210, D8; log entry 4). -/
def step (s : State) : Host.Outcome State Fault Refusal :=
  match s.run with
  | .running => sequenceStep s
  | .halted reason => .fault (.halted reason)

/-- The state with a word where the next step fetches it, and all that this fetch needs (log entry 6): running, an
aligned pc, a budget that is not used up, no rule that refuses the fetch. Of `State.reset` only the memory changes. -/
def State.withFetchWord (s : State) (nbits w : Nat) : State :=
  let pc := s.pc &&& 0xFFFFFFFC#32
  { s with
    pc := pc
    run := .running
    budget := if s.budgetReached then none else s.budget
    memRules := s.memRules.filter (fun f => !f.applies pc 4 .fetch)
    mem := Memory.writeBytes s.mem pc (leBytes 4 (BitVec.ofNat 32 (w % 2 ^ nbits))) }

end Sys2Proof.Machine
end

