-- ==== Sys2Proof/Safety.lean ====
section
/-! DEFINITION. The words the claims use: what a run reaches, which ends are successes, what a state keeps from one step
to the next, and the invariants. -/

namespace Sys2Proof.Machine

/-! ## Runs -/

/-- The states a run with these arguments reaches from reset (R217). -/
inductive Reachable (args : RunArgs) : State → Prop where
  | reset : Reachable args (State.resetWith args)
  | step {s t : State} : Reachable args s → step s = .next t → Reachable args t

/-- The one successful end (R230). -/
def State.exitedCleanly (s : State) : Prop := s.run = .halted .exit

/-- Halted by one of the five reasons that are faults (R230). -/
def State.haltedByFault (s : State) : Prop := ∃ r, r ≠ .exit ∧ s.run = .halted r

/-- A safe run: no state it reaches is halted by a fault. -/
def SafeRun (args : RunArgs) : Prop := ∀ s, Reachable args s → ¬ s.haltedByFault

/-! ## What an instruction changes, and that it changes nothing else -/

/-- The run's arguments are the same. -/
structure SameArguments (s t : State) : Prop where
  memRules : t.memRules = s.memRules
  hostInEnded : t.hostInEnded = s.hostInEnded
  getcharEof : t.getcharEof = s.getcharEof
  budget : t.budget = s.budget

/-- Every byte of memory reads as before. -/
def SameBytes (s t : State) : Prop := ∀ a : Word, t.byteAt a = s.byteAt a

/-- Every register reads as before. -/
def SameRegs (s t : State) : Prop := ∀ r : RegIdx, t.readReg r = s.readReg r

/-- Register rd reads v, or zero if it is x0; every other register reads as before (R12). -/
def RegWritten (s t : State) (rd : RegIdx) (v : Word) : Prop :=
  ∀ r : RegIdx, t.readReg r = if r = 0 then 0#32 else if r = rd then v else s.readReg r

/-- The step completed: pc as given, instret one more, still in the same run state, the arguments the same (R215). -/
structure Completed (s t : State) (nextPc : Word) : Prop where
  pc : t.pc = nextPc
  instret : t.instret = s.instret + 1
  run : t.run = s.run
  args : SameArguments s t

/-- Completed with one register write and nothing else: no byte of memory, no host stream. -/
structure WritesOnly (s t : State) (rd : RegIdx) (v nextPc : Word) : Prop where
  completed : Completed s t nextPc
  regs : RegWritten s t rd v
  bytes : SameBytes s t
  hostIn : t.hostIn = s.hostIn
  hostOut : t.hostOut = s.hostOut

/-- Completed with no register, memory or stream change. -/
structure MovesPcOnly (s t : State) (nextPc : Word) : Prop where
  completed : Completed s t nextPc
  regs : SameRegs s t
  bytes : SameBytes s t
  hostIn : t.hostIn = s.hostIn
  hostOut : t.hostOut = s.hostOut

/-- Completed with bytes stored from `addr` on, lowest first, addresses modulo 2^32, every other byte as before, and no
register or stream change (R152). -/
structure StoresOnly (s t : State) (addr : Word) (bytes : List Byte) (nextPc : Word) : Prop where
  completed : Completed s t nextPc
  regs : SameRegs s t
  stored : ∀ k : Nat, k < bytes.length → t.byteAt (addr + BitVec.ofNat 32 k) = bytes[k]?
  others : ∀ a : Word, (∀ k : Nat, k < bytes.length → a ≠ addr + BitVec.ofNat 32 k) → t.byteAt a = s.byteAt a
  hostIn : t.hostIn = s.hostIn
  hostOut : t.hostOut = s.hostOut

/-- Halted for a reason with nothing else committed (R231). -/
structure HaltsOnly (s t : State) (reason : HaltReason) : Prop where
  run : t.run = .halted reason
  pc : t.pc = s.pc
  instret : t.instret = s.instret
  regs : SameRegs s t
  bytes : SameBytes s t
  hostIn : t.hostIn = s.hostIn
  hostOut : t.hostOut = s.hostOut
  args : SameArguments s t

/-! ## Invariants -/

/-- The budget bounds instret (R211: exactly n instructions can complete). -/
def State.withinBudget (s : State) : Prop := ∀ n, s.budget = some n → s.instret ≤ n

/-- The address and width of the data access an instruction makes (R32). -/
def dataAccess (i : Instr) (s : State) : Option (Word × Nat × AccessKind) :=
  match i with
  | .lb _ rs1 imm | .lbu _ rs1 imm => some (effectiveAddress (s.readReg rs1) imm, 1, .load)
  | .lh _ rs1 imm | .lhu _ rs1 imm => some (effectiveAddress (s.readReg rs1) imm, 2, .load)
  | .lw _ rs1 imm => some (effectiveAddress (s.readReg rs1) imm, 4, .load)
  | .sb rs1 _ imm => some (effectiveAddress (s.readReg rs1) imm, 1, .store)
  | .sh rs1 _ imm => some (effectiveAddress (s.readReg rs1) imm, 2, .store)
  | .sw rs1 _ imm => some (effectiveAddress (s.readReg rs1) imm, 4, .store)
  | .add _ _ _ | .sub _ _ _ | .sll _ _ _ | .slt _ _ _ | .sltu _ _ _ | .xor _ _ _ | .srl _ _ _ | .sra _ _ _
  | .or _ _ _ | .and _ _ _ | .addi _ _ _ | .slti _ _ _ | .sltiu _ _ _ | .xori _ _ _ | .ori _ _ _ | .andi _ _ _
  | .slli _ _ _ | .srli _ _ _ | .srai _ _ _ | .beq _ _ _ | .bne _ _ _ | .blt _ _ _ | .bge _ _ _ | .bltu _ _ _
  | .bgeu _ _ _ | .jal _ _ | .jalr _ _ _ | .lui _ _ | .auipc _ _ | .ecall => none

/-- What a halted state still shows of why it halted (R230, R231, R194 to R196, R234 to R236): the condition of the
reason holds in it, and what the reason reports is there. -/
def State.haltJustified (s : State) : Prop :=
  match s.run with
  | .running => True
  | .halted .exit => s.fetch = some 0x00000073#32 ∧ (s.readReg 17 = 3#32 ∨ s.readReg 17 = 93#32)
  | .halted (.unknownInstruction pc raw) =>
    pc = s.pc ∧ s.fetch = some raw ∧ mnemonic (decode raw) = .unknown
  | .halted .unsupportedSyscall =>
    s.fetch = some 0x00000073#32 ∧ s.readReg 17 ≠ 1#32 ∧ s.readReg 17 ≠ 2#32 ∧ s.readReg 17 ≠ 3#32 ∧ s.readReg 17 ≠ 93#32
  | .halted .memoryFault =>
    s.memFault s.pc 4 .fetch = true ∨
      ∃ w i a n k, s.fetch = some w ∧ decodeInstr w = .ok i ∧ dataAccess i s = some (a, n, k) ∧ s.memFault a n k = true
  | .halted .budgetExceeded => ∃ n, s.budget = some n ∧ n ≤ s.instret
  | .halted (.pcMisaligned pc) => pc = s.pc ∧ s.pc.toNat % 4 ≠ 0

end Sys2Proof.Machine
end

