-- ==== Sys2Proof/Certificates/Slice0/Obligations.lean ====
section
/-! DEFINITION. The statements for the provers. Instruction words are spelled field by field from the layouts of
spec/30_encoding.md section 2; results are given in integer arithmetic where the rule is arithmetic. The frame of an
instruction is the one its `WritesOnly`, `MovesPcOnly`, `StoresOnly` or `HaltsOnly` names. -/

open Sys2Proof Sys2Proof.Machine

namespace Sys2Proof.Claims

/-! ## Words, field by field -/

def wordR (funct7 : BitVec 7) (rs2 rs1 : BitVec 5) (funct3 : BitVec 3) (rd : BitVec 5) (opcode : BitVec 7) : Word :=
  funct7 ++ rs2 ++ rs1 ++ funct3 ++ rd ++ opcode

def wordI (imm : BitVec 12) (rs1 : BitVec 5) (funct3 : BitVec 3) (rd : BitVec 5) (opcode : BitVec 7) : Word :=
  imm ++ rs1 ++ funct3 ++ rd ++ opcode

def wordS (imm : BitVec 12) (rs2 rs1 : BitVec 5) (funct3 : BitVec 3) (opcode : BitVec 7) : Word :=
  imm.extractLsb' 5 7 ++ rs2 ++ rs1 ++ funct3 ++ imm.extractLsb' 0 5 ++ opcode

def wordB (imm : BitVec 13) (rs2 rs1 : BitVec 5) (funct3 : BitVec 3) (opcode : BitVec 7) : Word :=
  imm.extractLsb' 12 1 ++ imm.extractLsb' 5 6 ++ rs2 ++ rs1 ++ funct3 ++ imm.extractLsb' 1 4 ++
    imm.extractLsb' 11 1 ++ opcode

def wordU (imm : BitVec 20) (rd : BitVec 5) (opcode : BitVec 7) : Word :=
  imm ++ rd ++ opcode

def wordJ (imm : BitVec 21) (rd : BitVec 5) (opcode : BitVec 7) : Word :=
  imm.extractLsb' 20 1 ++ imm.extractLsb' 1 10 ++ imm.extractLsb' 11 1 ++ imm.extractLsb' 12 8 ++ rd ++ opcode

/-! ## The shapes of instruction -/

/-- A register-register instruction: its word decodes to it, and it completes, writing the value to rd and nothing else
(R104). -/
def RegOp (funct7 : BitVec 7) (funct3 : BitVec 3) (mk : RegIdx → RegIdx → RegIdx → Instr)
    (value : Word → Word → Word) : Prop :=
  ∀ (rd rs1 rs2 : RegIdx) (s : State),
    decodeInstr (wordR funct7 (fieldOf rs2) (fieldOf rs1) funct3 (fieldOf rd) 0b0110011#7) = .ok (mk rd rs1 rs2) ∧
    ∃ t, exec (mk rd rs1 rs2) s = .next t ∧
      WritesOnly s t rd (value (s.readReg rs1) (s.readReg rs2)) (s.pc + 4#32)

/-- An arithmetic-immediate instruction: its word decodes with the immediate sign-extended, and it completes (R120). -/
def ImmOp (funct3 : BitVec 3) (mk : RegIdx → RegIdx → Word → Instr) (value : Word → Word → Word) : Prop :=
  (∀ (rd rs1 : RegIdx) (imm : BitVec 12),
    decodeInstr (wordI imm (fieldOf rs1) funct3 (fieldOf rd) 0b0010011#7) = .ok (mk rd rs1 (imm.signExtend 32))) ∧
  ∀ (rd rs1 : RegIdx) (imm : Word) (s : State),
    ∃ t, exec (mk rd rs1 imm) s = .next t ∧ WritesOnly s t rd (value (s.readReg rs1) imm) (s.pc + 4#32)

/-- An immediate shift, by the five-bit amount (R127). -/
def ShiftImmOp (funct7 : BitVec 7) (funct3 : BitVec 3) (mk : RegIdx → RegIdx → BitVec 5 → Instr)
    (value : Word → Nat → Word) : Prop :=
  ∀ (rd rs1 : RegIdx) (shamt : BitVec 5) (s : State),
    decodeInstr (wordR funct7 shamt (fieldOf rs1) funct3 (fieldOf rd) 0b0010011#7) = .ok (mk rd rs1 shamt) ∧
    ∃ t, exec (mk rd rs1 shamt) s = .next t ∧
      WritesOnly s t rd (value (s.readReg rs1) shamt.toNat) (s.pc + 4#32)

/-- A load of n bytes that the memory does not refuse: byte k of the access is `b k` (R140, R141). -/
def LoadOp (funct3 : BitVec 3) (n : Nat) (mk : RegIdx → RegIdx → Word → Instr) (value : (Nat → Byte) → Word) : Prop :=
  (∀ (rd rs1 : RegIdx) (imm : BitVec 12),
    decodeInstr (wordI imm (fieldOf rs1) funct3 (fieldOf rd) 0b0000011#7) = .ok (mk rd rs1 (imm.signExtend 32))) ∧
  ∀ (rd rs1 : RegIdx) (imm : Word) (s : State) (b : Nat → Byte),
    s.memFault (s.readReg rs1 + imm) n .load = false →
    (∀ k, k < n → s.byteAt (s.readReg rs1 + imm + BitVec.ofNat 32 k) = some (b k)) →
    ∃ t, exec (mk rd rs1 imm) s = .next t ∧ WritesOnly s t rd (value b) (s.pc + 4#32)

/-- A store of n bytes that the memory does not refuse (R150, R151). -/
def StoreOp (funct3 : BitVec 3) (n : Nat) (mk : RegIdx → RegIdx → Word → Instr) (bytes : Word → List Byte) : Prop :=
  (∀ (rs1 rs2 : RegIdx) (imm : BitVec 12),
    decodeInstr (wordS imm (fieldOf rs2) (fieldOf rs1) funct3 0b0100011#7) = .ok (mk rs1 rs2 (imm.signExtend 32))) ∧
  ∀ (rs1 rs2 : RegIdx) (imm : Word) (s : State),
    s.memFault (s.readReg rs1 + imm) n .store = false →
    ∃ t, exec (mk rs1 rs2 imm) s = .next t ∧
      StoresOnly s t (s.readReg rs1 + imm) (bytes (s.readReg rs2)) (s.pc + 4#32)

/-- A conditional branch: its word decodes to the even byte offset `h ++ 0`, and it completes at the target if the
condition holds of `x[rs1]`, `x[rs2]` and at the next instruction otherwise (R160, R161). -/
def BranchOp (funct3 : BitVec 3) (mk : RegIdx → RegIdx → Word → Instr) (taken : Word → Word → Prop) : Prop :=
  (∀ (rs1 rs2 : RegIdx) (h : BitVec 12),
    decodeInstr (wordB (h ++ 0#1) (fieldOf rs2) (fieldOf rs1) funct3 0b1100011#7) =
      .ok (mk rs1 rs2 ((h ++ 0#1).signExtend 32))) ∧
  ∀ (rs1 rs2 : RegIdx) (imm : Word) (s : State),
    ∃ t, exec (mk rs1 rs2 imm) s = .next t ∧
      (taken (s.readReg rs1) (s.readReg rs2) → MovesPcOnly s t (s.pc + imm)) ∧
      (¬ taken (s.readReg rs1) (s.readReg rs2) → MovesPcOnly s t (s.pc + 4#32))

/-- Running, with budget for two steps. -/
def TwoStepsLeft (s : State) : Prop :=
  s.run = .running ∧ ∀ n, s.budget = some n → s.instret + 1 < n

/-- The next step halts with pc_misaligned, reports this pc and commits nothing (R235). -/
def HaltsMisaligned (t : State) (target : Word) : Prop :=
  ∃ u, step t = .next u ∧ HaltsOnly t u (.pcMisaligned target)

/-- A branch that is taken to a target that is not a multiple of 4 completes, and the next step halts there (R164). -/
def BranchMisaligns (mk : RegIdx → RegIdx → Word → Instr) (taken : Word → Word → Prop) : Prop :=
  ∀ (rs1 rs2 : RegIdx) (imm : Word) (s : State), TwoStepsLeft s → taken (s.readReg rs1) (s.readReg rs2) →
    (s.pc + imm).toNat % 4 ≠ 0 →
    ∃ t, exec (mk rs1 rs2 imm) s = .next t ∧ MovesPcOnly s t (s.pc + imm) ∧ HaltsMisaligned t (s.pc + imm)

/-- A load of width n halts where the memory refuses the access (R143). -/
def LoadFaults (n : Nat) (mk : RegIdx → RegIdx → Word → Instr) : Prop :=
  ∀ (rd rs1 : RegIdx) (imm : Word) (s : State), s.memFault (s.readReg rs1 + imm) n .load = true →
    ∃ t, exec (mk rd rs1 imm) s = .next t ∧ HaltsOnly s t .memoryFault

/-- A store of width n halts where the memory refuses the access (R153). -/
def StoreFaults (n : Nat) (mk : RegIdx → RegIdx → Word → Instr) : Prop :=
  ∀ (rs1 rs2 : RegIdx) (imm : Word) (s : State), s.memFault (s.readReg rs1 + imm) n .store = true →
    ∃ t, exec (mk rs1 rs2 imm) s = .next t ∧ HaltsOnly s t .memoryFault

/-- A getchar that delivers v and leaves the stream `rest` (R192). -/
structure GetsChar (s t : State) (v : Word) (rest : List HostValue) : Prop where
  completed : Completed s t (s.pc + 4#32)
  regs : RegWritten s t 10 v
  bytes : SameBytes s t
  hostIn : t.hostIn = rest
  hostOut : t.hostOut = s.hostOut

/-- The comparator by funct3, in integers (R162, R205). -/
def comparator (funct3 : BitVec 3) (a b : Word) : Bool :=
  if funct3 = 0b000#3 then decide (a = b)
  else if funct3 = 0b001#3 then decide (a ≠ b)
  else if funct3 = 0b100#3 then decide (a.toInt < b.toInt)
  else if funct3 = 0b101#3 then decide (b.toInt ≤ a.toInt)
  else if funct3 = 0b110#3 then decide (a.toNat < b.toNat)
  else if funct3 = 0b111#3 then decide (b.toNat ≤ a.toNat)
  else false

/-- The six branches. -/
def isBranch (op : OperationId) : Bool :=
  op == .beq || op == .bne || op == .blt || op == .bge || op == .bltu || op == .bgeu

/-- A step can run: running, an aligned pc, budget left. -/
def CanRun (s : State) : Prop :=
  s.run = .running ∧ (∀ n, s.budget = some n → s.instret < n) ∧ s.pc.toNat % 4 = 0

/-- The four bytes at pc are `b 0` to `b 3` and the memory does not refuse the fetch. -/
def FetchBytes (s : State) (b : Nat → Byte) : Prop :=
  s.memFault s.pc 4 .fetch = false ∧ ∀ k, k < 4 → s.byteAt (s.pc + BitVec.ofNat 32 k) = some (b k)

end Sys2Proof.Claims

open Sys2Proof.Claims

/-! ## Reset and the register file -/

/-- R260: the reset state of a run with any arguments. -/
def Obligations.ResetStateOfAnyRun : Prop :=
  ∀ a : RunArgs,
    (∀ r, (State.resetWith a).readReg r = 0#32) ∧ (State.resetWith a).pc = a.startPc ∧
    (State.resetWith a).run = .running ∧ (State.resetWith a).instret = 0 ∧
    (State.resetWith a).hostOut = [] ∧ (State.resetWith a).mem = a.image ∧ (State.resetWith a).hostIn = a.input ∧
    (State.resetWith a).memRules = a.memRules ∧ (State.resetWith a).budget = a.budget ∧
    (State.resetWith a).getcharEof = a.getcharEof ∧ (State.resetWith a).hostInEnded = a.inputEnded

/-- The invariants below hold at reset: in `State.reset` (whose arguments are log entry 1's choice) and in the reset
state of any run whose image is in canonical form. -/
def Obligations.ResetStateMeetsTheInvariants : Prop :=
  (Memory.wf State.reset.mem = true ∧ State.reset.withinBudget ∧ State.reset.haltJustified ∧
    State.reset.pc.toNat % 2 = 0) ∧
  ∀ a : RunArgs, Memory.wf a.image = true →
    Memory.wf (State.resetWith a).mem = true ∧ (State.resetWith a).withinBudget ∧ (State.resetWith a).haltJustified

/-- R11, R12: x0 reads zero in every state, a write to it changes nothing, and no step makes it read otherwise. -/
def Obligations.RegisterZeroIsHardWired : Prop :=
  ∀ (s t : State) (v : Word), s.readReg 0 = 0#32 ∧ s.writeReg 0 v = s ∧ (step s = .next t → t.readReg 0 = 0#32)

/-! ## Register-register instructions -/

/-- R105, R106: sum and difference modulo 2^32. -/
def Obligations.AddAndSubWrap : Prop :=
  RegOp 0b0000000#7 0b000#3 .add (fun a b => BitVec.ofNat 32 (a.toNat + b.toNat)) ∧
  RegOp 0b0100000#7 0b000#3 .sub (fun a b => BitVec.ofInt 32 ((a.toNat : Int) - (b.toNat : Int)))

/-- R107, R111, R112, R103: shifts by the low five bits, as multiplication and floor division by a power of two. -/
def Obligations.RegisterShiftsUseLowFiveBits : Prop :=
  RegOp 0b0000000#7 0b001#3 .sll (fun a b => BitVec.ofNat 32 (a.toNat * 2 ^ (b.toNat % 32))) ∧
  RegOp 0b0000000#7 0b101#3 .srl (fun a b => BitVec.ofNat 32 (a.toNat / 2 ^ (b.toNat % 32))) ∧
  RegOp 0b0100000#7 0b101#3 .sra (fun a b => BitVec.ofInt 32 (a.toInt / 2 ^ (b.toNat % 32)))

/-- R108, R109: the comparisons give 1 or 0, signed and unsigned. -/
def Obligations.SetLessThanSignedAndUnsigned : Prop :=
  RegOp 0b0000000#7 0b010#3 .slt (fun a b => if a.toInt < b.toInt then 1#32 else 0#32) ∧
  RegOp 0b0000000#7 0b011#3 .sltu (fun a b => if a.toNat < b.toNat then 1#32 else 0#32)

/-- R110, R113, R114: the bitwise operations. -/
def Obligations.RegisterLogic : Prop :=
  RegOp 0b0000000#7 0b100#3 .xor (fun a b => a ^^^ b) ∧
  RegOp 0b0000000#7 0b110#3 .or (fun a b => a ||| b) ∧
  RegOp 0b0000000#7 0b111#3 .and (fun a b => a &&& b)

/-! ## Arithmetic-immediate instructions -/

/-- R122: the sum with the sign-extended immediate, modulo 2^32. -/
def Obligations.AddiWraps : Prop :=
  ImmOp 0b000#3 .addi (fun a imm => BitVec.ofInt 32 (a.toInt + imm.toInt))

/-- R123, R124: comparison with the sign-extended immediate, read signed by SLTI and unsigned by SLTIU. -/
def Obligations.SetLessThanImmediate : Prop :=
  ImmOp 0b010#3 .slti (fun a imm => if a.toInt < imm.toInt then 1#32 else 0#32) ∧
  ImmOp 0b011#3 .sltiu (fun a imm => if a.toNat < imm.toNat then 1#32 else 0#32)

/-- R125, R126: the bitwise operations with the sign-extended immediate. -/
def Obligations.ImmediateLogic : Prop :=
  ImmOp 0b100#3 .xori (fun a imm => a ^^^ imm) ∧
  ImmOp 0b110#3 .ori (fun a imm => a ||| imm) ∧
  ImmOp 0b111#3 .andi (fun a imm => a &&& imm)

/-- R128, R129, R130: the immediate shifts. -/
def Obligations.ImmediateShifts : Prop :=
  ShiftImmOp 0b0000000#7 0b001#3 .slli (fun a sh => BitVec.ofNat 32 (a.toNat * 2 ^ sh)) ∧
  ShiftImmOp 0b0000000#7 0b101#3 .srli (fun a sh => BitVec.ofNat 32 (a.toNat / 2 ^ sh)) ∧
  ShiftImmOp 0b0100000#7 0b101#3 .srai (fun a sh => BitVec.ofInt 32 (a.toInt / 2 ^ sh))

/-! ## Loads and stores -/

/-- R145, R148: a byte, sign-extended by LB and zero-extended by LBU. -/
def Obligations.ByteLoads : Prop :=
  LoadOp 0b000#3 1 .lb (fun b => BitVec.ofInt 32 (b 0).toInt) ∧
  LoadOp 0b100#3 1 .lbu (fun b => BitVec.ofNat 32 (b 0).toNat)

/-- R146, R149: a little-endian half-word, sign-extended by LH and zero-extended by LHU. -/
def Obligations.HalfWordLoads : Prop :=
  LoadOp 0b001#3 2 .lh (fun b => BitVec.ofInt 32 (b 1 ++ b 0).toInt) ∧
  LoadOp 0b101#3 2 .lhu (fun b => BitVec.ofNat 32 (b 1 ++ b 0).toNat)

/-- R147: a little-endian word at any alignment. -/
def Obligations.WordLoad : Prop :=
  LoadOp 0b010#3 4 .lw (fun b => b 3 ++ b 2 ++ b 1 ++ b 0)

/-- R155, R156, R157: the low bytes of `x[rs2]`, the least significant at the lowest address, and no other byte. -/
def Obligations.StoresWriteTheLowBytes : Prop :=
  StoreOp 0b000#3 1 .sb (fun v => [v.extractLsb' 0 8]) ∧
  StoreOp 0b001#3 2 .sh (fun v => [v.extractLsb' 0 8, v.extractLsb' 8 8]) ∧
  StoreOp 0b010#3 4 .sw (fun v => [v.extractLsb' 0 8, v.extractLsb' 8 8, v.extractLsb' 16 8, v.extractLsb' 24 8])

/-- R143, R153: a data access the memory refuses halts with memory_fault and commits nothing (that no byte of a failing
store is written is the spec's decision D16). -/
def Obligations.FailingDataAccessHalts : Prop :=
  (LoadFaults 1 .lb ∧ LoadFaults 2 .lh ∧ LoadFaults 4 .lw ∧ LoadFaults 1 .lbu ∧ LoadFaults 2 .lhu) ∧
  (StoreFaults 1 .sb ∧ StoreFaults 2 .sh ∧ StoreFaults 4 .sw)

/-! ## Branches and jumps -/

/-- R166, R167. -/
def Obligations.BranchesOnEquality : Prop :=
  BranchOp 0b000#3 .beq (fun a b => a = b) ∧ BranchOp 0b001#3 .bne (fun a b => a ≠ b)

/-- R168. -/
def Obligations.BranchesOnSignedOrder : Prop :=
  BranchOp 0b100#3 .blt (fun a b => a.toInt < b.toInt) ∧ BranchOp 0b101#3 .bge (fun a b => a.toInt ≥ b.toInt)

/-- R169. -/
def Obligations.BranchesOnUnsignedOrder : Prop :=
  BranchOp 0b110#3 .bltu (fun a b => a.toNat < b.toNat) ∧ BranchOp 0b111#3 .bgeu (fun a b => a.toNat ≥ b.toNat)

/-- R172: link and target, both from the jump's own address. -/
def Obligations.JalLinksAndJumps : Prop :=
  (∀ (rd : RegIdx) (h : BitVec 20),
    decodeInstr (wordJ (h ++ 0#1) (fieldOf rd) 0b1101111#7) = .ok (.jal rd ((h ++ 0#1).signExtend 32))) ∧
  ∀ (rd : RegIdx) (imm : Word) (s : State),
    ∃ t, exec (.jal rd imm) s = .next t ∧ WritesOnly s t rd (s.pc + 4#32) (s.pc + imm)

/-- R173: the target is the sum with its lowest bit cleared, from `x[rs1]` as it was before the link write, whether or not
rd is rs1 (the order of R173's lines; R174 says so by the spec's decision D17). -/
def Obligations.JalrLinksAndJumps : Prop :=
  (∀ (rd rs1 : RegIdx) (imm : BitVec 12),
    decodeInstr (wordI imm (fieldOf rs1) 0b000#3 (fieldOf rd) 0b1100111#7) =
      .ok (.jalr rd rs1 (imm.signExtend 32))) ∧
  ∀ (rd rs1 : RegIdx) (imm : Word) (s : State),
    ∃ t, exec (.jalr rd rs1 imm) s = .next t ∧
      WritesOnly s t rd (s.pc + 4#32)
        (BitVec.ofNat 32 (((s.readReg rs1).toNat + imm.toNat) % 2 ^ 32 / 2 * 2))

/-- R164, R171, R235: a transfer to a target that is not a multiple of 4, by any taken branch, JAL or JALR, from any base
and immediate, completes with the target as computed and the link written, and the next step halts there with pc_misaligned
(the spec's decision D9). -/
def Obligations.MisalignedTargetHaltsAtTheNextStep : Prop :=
  (BranchMisaligns .beq (fun a b => a = b) ∧ BranchMisaligns .bne (fun a b => a ≠ b) ∧
    BranchMisaligns .blt (fun a b => a.toInt < b.toInt) ∧ BranchMisaligns .bge (fun a b => a.toInt ≥ b.toInt) ∧
    BranchMisaligns .bltu (fun a b => a.toNat < b.toNat) ∧ BranchMisaligns .bgeu (fun a b => a.toNat ≥ b.toNat)) ∧
  (∀ (rd : RegIdx) (imm : Word) (s : State), TwoStepsLeft s → (s.pc + imm).toNat % 4 ≠ 0 →
    ∃ t, exec (.jal rd imm) s = .next t ∧ WritesOnly s t rd (s.pc + 4#32) (s.pc + imm) ∧
      HaltsMisaligned t (s.pc + imm)) ∧
  ∀ (rd rs1 : RegIdx) (imm : Word) (s : State), TwoStepsLeft s → (jalrTarget (s.readReg rs1) imm).toNat % 4 = 2 →
    ∃ t, exec (.jalr rd rs1 imm) s = .next t ∧
      WritesOnly s t rd (s.pc + 4#32) (jalrTarget (s.readReg rs1) imm) ∧
      HaltsMisaligned t (jalrTarget (s.readReg rs1) imm)

/-! ## Upper immediates -/

/-- R181: the immediate as decoded, not shifted again; LUI then ADDI of the two parts of C leave C, and both parts have
encodings. -/
def Obligations.LuiLoadsTheUpperImmediate : Prop :=
  (∀ (rd : RegIdx) (imm20 : BitVec 20),
    decodeInstr (wordU imm20 (fieldOf rd) 0b0110111#7) = .ok (.lui rd (imm20 ++ 0#12))) ∧
  (∀ (rd : RegIdx) (imm : Word) (s : State),
    ∃ t, exec (.lui rd imm) s = .next t ∧ WritesOnly s t rd imm (s.pc + 4#32)) ∧
  ∀ (c : Word) (rd : RegIdx) (s : State), rd ≠ 0 →
    (Instr.lui rd (c - (c.setWidth 12).signExtend 32)).wellFormed = true ∧
    (Instr.addi rd rd ((c.setWidth 12).signExtend 32)).wellFormed = true ∧
    ∃ t u, exec (.lui rd (c - (c.setWidth 12).signExtend 32)) s = .next t ∧
      exec (.addi rd rd ((c.setWidth 12).signExtend 32)) t = .next u ∧ u.readReg rd = c

/-- R182: added to the instruction's own address. -/
def Obligations.AuipcAddsToItsOwnAddress : Prop :=
  (∀ (rd : RegIdx) (imm20 : BitVec 20),
    decodeInstr (wordU imm20 (fieldOf rd) 0b0010111#7) = .ok (.auipc rd (imm20 ++ 0#12))) ∧
  ∀ (rd : RegIdx) (imm : Word) (s : State),
    ∃ t, exec (.auipc rd imm) s = .next t ∧
      WritesOnly s t rd (BitVec.ofNat 32 (s.pc.toNat + imm.toNat)) (s.pc + 4#32)

/-! ## ECALL -/

/-- R192: getchar delivers the next value of the input to x10, a character zero-extended; at the end of input it
delivers GETCHAR_EOF (both the spec's decision D14); while nothing is there and more may come the step does not complete
(the spec's U13, log entry 5). -/
def Obligations.GetCharDeliversTheNextInput : Prop :=
  ∀ s : State, s.readReg 17 = 1#32 →
    (∀ (c : Byte) (rest : List HostValue), s.hostIn = .char c :: rest →
      ∃ t, exec .ecall s = .next t ∧ GetsChar s t (BitVec.ofNat 32 c.toNat) rest) ∧
    (∀ (v : Word) (rest : List HostValue), s.hostIn = .draw v :: rest →
      ∃ t, exec .ecall s = .next t ∧ GetsChar s t v rest) ∧
    (s.hostIn = [] → s.hostInEnded = true →
      ∃ t, exec .ecall s = .next t ∧ GetsChar s t s.getcharEof []) ∧
    (s.hostIn = [] → s.hostInEnded = false → ∀ t, exec .ecall s ≠ .next t)

/-- R193: putchar appends the low byte of x10 and writes no register (the latter the spec's decision D14). -/
def Obligations.PutCharAppendsTheLowByte : Prop :=
  ∀ s : State, s.readReg 17 = 2#32 →
    ∃ t, exec .ecall s = .next t ∧ Completed s t (s.pc + 4#32) ∧ SameRegs s t ∧ SameBytes s t ∧
      t.hostIn = s.hostIn ∧ t.hostOut = s.hostOut ++ [(s.readReg 10).extractLsb' 0 8]

/-- R194: codes 3 and 93 halt with exit; instret counts the ECALL and nothing else changes (the spec's decision D12). -/
def Obligations.ExitHaltsCleanly : Prop :=
  ∀ s : State, s.readReg 17 = 3#32 ∨ s.readReg 17 = 93#32 →
    ∃ t, exec .ecall s = .next t ∧ t.run = .halted .exit ∧ t.instret = s.instret + 1 ∧ t.pc = s.pc ∧
      SameRegs s t ∧ SameBytes s t ∧ t.hostIn = s.hostIn ∧ t.hostOut = s.hostOut ∧ SameArguments s t

/-- R195: any other code, compared on all 32 bits, halts with unsupported_syscall and commits nothing (the
spec's decisions D12, D27). -/
def Obligations.UnsupportedSyscallHalts : Prop :=
  ∀ s : State, s.readReg 17 ≠ 1#32 → s.readReg 17 ≠ 2#32 → s.readReg 17 ≠ 3#32 → s.readReg 17 ≠ 93#32 →
    ∃ t, exec .ecall s = .next t ∧ HaltsOnly s t .unsupportedSyscall

/-! ## Decoding -/

/-- Decoding the word of a well-formed instruction gives it back. -/
def Obligations.DecodeInvertsEncode : Prop :=
  ∀ i : Instr, i.wellFormed = true → decodeInstr (encode i) = .ok i

/-- A word that decodes is the word of its instruction, which is well-formed: no bit of it is dropped. -/
def Obligations.EncodeInvertsDecode : Prop :=
  ∀ (w : Word) (i : Instr), decodeInstr w = .ok i → i.wellFormed = true ∧ encode i = w

/-- The resolver is the opcode table: an operation's words are those its row's mask and pattern admit, and the words
without an instruction are those no row admits. -/
def Obligations.ResolverIsTheOpcodeTable : Prop :=
  ∀ w : Word,
    (∀ row ∈ opcodeTable, mnemonic (decode w) = row.op ↔ w &&& row.mask = row.pattern) ∧
    ((∃ e, decodeInstr w = .error e) ↔ ∀ row ∈ opcodeTable, w &&& row.mask ≠ row.pattern)

/-- R53, R54, R60 to R65: the decoder's record. (That a field the format lacks is zero is the spec's decision D6, log
entry 8.) -/
def Obligations.DecoderRecordFollowsTheFormat : Prop :=
  ∀ w : Word,
    (decode w).raw = w ∧ (decode w).opcode = w.extractLsb' 0 7 ∧
    (decode w).format =
      (if w.extractLsb' 0 7 = 0x33#7 then .r
       else if w.extractLsb' 0 7 ∈ [0x13#7, 0x03#7, 0x67#7, 0x73#7] then .i
       else if w.extractLsb' 0 7 = 0x23#7 then .s
       else if w.extractLsb' 0 7 = 0x63#7 then .b
       else if w.extractLsb' 0 7 ∈ [0x37#7, 0x17#7] then .u
       else if w.extractLsb' 0 7 = 0x6F#7 then .j
       else .unknown) ∧
    (decode w).rd = (if (decode w).format ∈ [.r, .i, .u, .j] then w.extractLsb' 7 5 else 0#5) ∧
    (decode w).funct3 = (if (decode w).format ∈ [.r, .i, .s, .b] then w.extractLsb' 12 3 else 0#3) ∧
    (decode w).rs1 = (if (decode w).format ∈ [.r, .i, .s, .b] then w.extractLsb' 15 5 else 0#5) ∧
    (decode w).rs2 = (if (decode w).format ∈ [.r, .s, .b] then w.extractLsb' 20 5 else 0#5) ∧
    (decode w).funct7 = (if (decode w).format ∈ [.r, .i] then w.extractLsb' 25 7 else 0#7) ∧
    (decode w).imm =
      (match (decode w).format with
       | .i => (w.extractLsb' 20 12).signExtend 32
       | .s => (w.extractLsb' 25 7 ++ w.extractLsb' 7 5).signExtend 32
       | .b => (w.extractLsb' 31 1 ++ w.extractLsb' 7 1 ++ w.extractLsb' 25 6 ++ w.extractLsb' 8 4 ++
                0#1).signExtend 32
       | .u => w &&& 0xFFFFF000#32
       | .j => (w.extractLsb' 31 1 ++ w.extractLsb' 12 8 ++ w.extractLsb' 20 1 ++ w.extractLsb' 21 10 ++
                0#1).signExtend 32
       | .r | .unknown => 0#32)

/-- R66: the immediates scatter back to the word's bits, carry its sign, and are even (B, J) or twelve bits shifted (U). -/
def Obligations.DecodedImmediatesRoundTrip : Prop :=
  ∀ w imm : Word, imm = (decode w).imm →
    ((decode w).format = .i → imm.extractLsb' 0 12 = w.extractLsb' 20 12) ∧
    ((decode w).format = .s → imm.extractLsb' 5 7 = w.extractLsb' 25 7 ∧ imm.extractLsb' 0 5 = w.extractLsb' 7 5) ∧
    ((decode w).format = .b → imm.getLsbD 12 = w.getLsbD 31 ∧ imm.getLsbD 11 = w.getLsbD 7 ∧
      imm.extractLsb' 5 6 = w.extractLsb' 25 6 ∧ imm.extractLsb' 1 4 = w.extractLsb' 8 4) ∧
    ((decode w).format = .u → imm.extractLsb' 12 20 = w.extractLsb' 12 20) ∧
    ((decode w).format = .j → imm.getLsbD 20 = w.getLsbD 31 ∧ imm.extractLsb' 12 8 = w.extractLsb' 12 8 ∧
      imm.getLsbD 11 = w.getLsbD 20 ∧ imm.extractLsb' 1 10 = w.extractLsb' 21 10) ∧
    (∀ k, k < 32 →
      ((decode w).format = .i ∨ (decode w).format = .s) ∧ 11 ≤ k ∨
      (decode w).format = .b ∧ 12 ≤ k ∨ (decode w).format = .j ∧ 20 ≤ k →
      imm.getLsbD k = w.getLsbD 31) ∧
    ((decode w).format = .b ∨ (decode w).format = .j → imm.getLsbD 0 = false) ∧
    ((decode w).format = .u → imm.extractLsb' 0 12 = 0#12)

/-- R80: of the words with opcode 1110011 exactly 0x00000073 is ECALL; every other has no instruction (the spec's decision
D4). -/
def Obligations.EcallIsOneWordOfItsOpcode : Prop :=
  ∀ w : Word, w.extractLsb' 0 7 = 0b1110011#7 →
    (decodeInstr w = .ok .ecall ↔ w = 0x00000073#32) ∧
    (w ≠ 0x00000073#32 → mnemonic (decode w) = .unknown ∧ ∃ e, decodeInstr w = .error e)

/-- Words of 95_test_vectors.md V1 and of the rules' examples, one or more of every format, and words that are unknown. -/
def Obligations.SampleWordsDecode : Prop :=
  decodeInstr 0x41FFDFB3#32 = .ok (.sra 31 31 31) ∧
  decodeInstr 0xFFF00293#32 = .ok (.addi 5 0 0xFFFFFFFF#32) ∧
  decodeInstr 0x4040D193#32 = .ok (.srai 3 1 4#5) ∧
  decodeInstr 0xFFC12283#32 = .ok (.lw 5 2 0xFFFFFFFC#32) ∧
  decodeInstr 0x54111AA3#32 = .ok (.sh 2 1 1365#32) ∧
  decodeInstr 0xFE000EE3#32 = .ok (.beq 0 0 0xFFFFFFFC#32) ∧
  decodeInstr 0xFE0000E3#32 = .ok (.beq 0 0 0xFFFFFFE0#32) ∧
  decodeInstr 0x004190E3#32 = .ok (.bne 3 4 2048#32) ∧
  decodeInstr 0x554552EF#32 = .ok (.jal 5 0x55554#32) ∧
  decodeInstr 0x800280E7#32 = .ok (.jalr 1 5 0xFFFFF800#32) ∧
  decodeInstr 0x123462B7#32 = .ok (.lui 5 0x12346000#32) ∧
  decodeInstr 0x80000097#32 = .ok (.auipc 1 0x80000000#32) ∧
  decodeInstr 0x00000073#32 = .ok .ecall ∧
  mnemonic (decode 0x00100073#32) = .unknown ∧ mnemonic (decode 0x02208033#32) = .unknown ∧
  mnemonic (decode 0x0FF0000F#32) = .unknown ∧ mnemonic (decode 0xFFFFFFFF#32) = .unknown

/-! ## The step -/

/-- R210 to R214: in a running state with budget left, an aligned pc and a fetch the memory answers, a step is the
decoded instruction's effect; nothing is added around it (the instruction commits its own pc and instret). -/
def Obligations.StepRunsTheDecodedInstruction : Prop :=
  ∀ (s : State) (b : Nat → Byte) (i : Instr), CanRun s → FetchBytes s b →
    decodeInstr (b 3 ++ b 2 ++ b 1 ++ b 0) = .ok i → step s = exec i s

/-- R196: a fetched word that resolves to UNKNOWN halts with its address and the raw word and commits nothing. -/
def Obligations.UnknownWordHalts : Prop :=
  ∀ (s : State) (b : Nat → Byte), CanRun s → FetchBytes s b →
    mnemonic (decode (b 3 ++ b 2 ++ b 1 ++ b 0)) = .unknown →
    ∃ t, step s = .next t ∧ HaltsOnly s t (.unknownInstruction s.pc (b 3 ++ b 2 ++ b 1 ++ b 0))

/-- R236: with instret at the budget the step halts with budget_exceeded, whatever else would halt it (the spec's
decisions D13, D15). -/
def Obligations.UsedUpBudgetHaltsFirst : Prop :=
  ∀ (s : State) (n : Nat), s.run = .running → s.budget = some n → n ≤ s.instret →
    ∃ t, step s = .next t ∧ HaltsOnly s t .budgetExceeded

/-- R235: a pc that is not a multiple of 4 halts the step before any fetch (the spec's decision D9). -/
def Obligations.MisalignedPcHaltsBeforeTheFetch : Prop :=
  ∀ s : State, s.run = .running → (∀ n, s.budget = some n → s.instret < n) → s.pc.toNat % 4 ≠ 0 →
    ∃ t, step s = .next t ∧ HaltsOnly s t (.pcMisaligned s.pc)

/-- R212: a fetch the memory refuses halts with memory_fault. -/
def Obligations.FailingFetchHalts : Prop :=
  ∀ s : State, CanRun s → s.memFault s.pc 4 .fetch = true →
    ∃ t, step s = .next t ∧ HaltsOnly s t .memoryFault

/-- R20: no step is taken from Halted (the spec's decision D8). (That the outcome is `fault (halted r)` is log entry 4's choice.) -/
def Obligations.HaltedIsTerminal : Prop :=
  ∀ (s : State) (r : HaltReason), s.run = .halted r →
    (∀ t, step s ≠ .next t) ∧ step s = .fault (.halted r)

/-! ## Rules over all instructions -/

/-- R231: a step that halts by a fault commits nothing; the exit adds one to instret and commits nothing else
(the spec's decision D12). -/
def Obligations.HaltingCommitsNothing : Prop :=
  ∀ (s t : State) (r : HaltReason), step s = .next t → t.run = .halted r →
    (r ≠ .exit → HaltsOnly s t r) ∧
    (r = .exit → HaltsOnly { s with instret := s.instret + 1 } t .exit)

/-- R19: instret starts at 0, grows by one at every completed step and at the exit, stays at a fault, and no instruction
can read it: a different count leaves every other effect of an instruction the same. -/
def Obligations.InstretCountsAndIsUnreadable : Prop :=
  (∀ a : RunArgs, (State.resetWith a).instret = 0) ∧
  (∀ s t : State, step s = .next t →
    (t.run = .running ∨ t.run = .halted .exit → t.instret = s.instret + 1) ∧
    (∀ r, r ≠ .exit → t.run = .halted r → t.instret = s.instret)) ∧
  ∀ (i : Instr) (s : State) (n : Nat),
    (∀ t, exec i s = .next t → ∃ m, exec i { s with instret := n } = .next { t with instret := m }) ∧
    (∀ f, exec i s = .fault f → exec i { s with instret := n } = .fault f)

/-- Only ECALL touches the host streams, and a step takes at most one value off the input and puts at most one byte at the
end of the output. -/
def Obligations.OnlyEcallTouchesTheHostStreams : Prop :=
  ∀ (i : Instr) (s t : State), exec i s = .next t →
    (i ≠ .ecall → t.hostIn = s.hostIn ∧ t.hostOut = s.hostOut) ∧
    (t.hostIn = s.hostIn ∨ ∃ v, s.hostIn = v :: t.hostIn) ∧
    (t.hostOut = s.hostOut ∨ ∃ b, t.hostOut = s.hostOut ++ [b])

/-- Only stores change memory, only loads and stores use it, and each of them faults exactly where the memory refuses
its one data access (R32, R143, R153). -/
def Obligations.OnlyLoadsAndStoresUseMemory : Prop :=
  ∀ (i : Instr) (s t : State), exec i s = .next t →
    ((∀ a n, dataAccess i s ≠ some (a, n, .store)) → SameBytes s t) ∧
    (dataAccess i s = none → ∀ m : Memory, exec i { s with mem := m } = .next { t with mem := m }) ∧
    (s.run = .running → ∀ a n k, dataAccess i s = some (a, n, k) →
      (t.run = .halted .memoryFault ↔ s.memFault a n k = true))

/-- R14: an instruction changes no register but the rd of its word, and ECALL none but x10 by code 1. -/
def Obligations.OnlyTheDestinationRegisterChanges : Prop :=
  ∀ (w : Word) (i : Instr) (s t : State), decodeInstr w = .ok i → exec i s = .next t →
    ∀ r : RegIdx, (i ≠ .ecall → r ≠ regOf ((decode w).rd)) → (i = .ecall → s.readReg 17 = 1#32 → r ≠ 10) →
      t.readReg r = s.readReg r

/-- R13: an instruction reads no register but the rs1 and rs2 of its word, ECALL none but x17 and x10: another value in any
other register changes nothing else of the next state, and where that register is the word's rd, a completed instruction
leaves the same value in it. -/
def Obligations.InstructionsReadOnlyTheirSources : Prop :=
  ∀ (w : Word) (i : Instr) (s t : State) (q : RegIdx) (v : Word), decodeInstr w = .ok i →
    (i ≠ .ecall → q ≠ regOf ((decode w).rs1) ∧ q ≠ regOf ((decode w).rs2)) → (i = .ecall → q ≠ 17 ∧ q ≠ 10) →
    exec i s = .next t →
    ∃ u, exec i (s.writeReg q v) = .next u ∧ (∀ r, r ≠ q → u.readReg r = t.readReg r) ∧ u.pc = t.pc ∧ u.run = t.run ∧
      u.instret = t.instret ∧ SameBytes t u ∧ u.hostIn = t.hostIn ∧ u.hostOut = t.hostOut ∧ SameArguments t u ∧
      (i ≠ .ecall → q = regOf ((decode w).rd) → q ≠ 0 → t.instret = s.instret + 1 → u.readReg q = t.readReg q)

/-- R206: the PC calculator's table, and every completed instruction commits the pc that the calculator gives for its word
and the comparator's answer; JAL and JALR write its link value. -/
def Obligations.PcCalculatorGivesTheCommittedPc : Prop :=
  (∀ (op : OperationId) (pc imm rs1 : Word) (taken : Bool),
    pcCalculator op pc imm rs1 taken =
      (if op = .jal then pc + imm else if op = .jalr then (rs1 + imm) &&& 0xFFFFFFFE#32
       else if isBranch op && taken then pc + imm else pc + 4#32, pc + 4#32)) ∧
  ∀ (w : Word) (i : Instr) (s t : State) (next link : Word), decodeInstr w = .ok i → exec i s = .next t →
    t.run = .running →
    pcCalculator (mnemonic (decode w)) s.pc (decode w).imm (s.readReg (regOf (decode w).rs1))
      (comparator (decode w).funct3 (s.readReg (regOf (decode w).rs1)) (s.readReg (regOf (decode w).rs2))) =
        (next, link) →
    t.pc = next ∧
    (mnemonic (decode w) = .jal ∨ mnemonic (decode w) = .jalr → regOf (decode w).rd ≠ 0 →
      t.readReg (regOf (decode w).rd) = link)

/-! ## Invariants -/

/-- Every step keeps the memory in its canonical form (log entry 2). -/
def Obligations.StepKeepsTheMemoryCanonical : Prop :=
  ∀ s t : State, Memory.wf s.mem = true → step s = .next t → Memory.wf t.mem = true

/-- Every step keeps the halt reason true: a halted state shows the condition of its reason and what the reason reports. -/
def Obligations.StepKeepsTheHaltReasonTrue : Prop :=
  ∀ s t : State, s.haltJustified → step s = .next t → t.haltJustified

/-- Every step keeps instret within the budget, so that at most n instructions complete (R211). -/
def Obligations.StepKeepsInstretWithinTheBudget : Prop :=
  ∀ s t : State, s.withinBudget → step s = .next t → t.withinBudget

/-- Every step keeps the pc even: branch and jump offsets are even and JALR clears the lowest bit (R17). -/
def Obligations.StepKeepsThePcEven : Prop :=
  ∀ s t : State, s.pc.toNat % 2 = 0 → step s = .next t → t.pc.toNat % 2 = 0

/-- No step changes the run's arguments, or which addresses are populated (D11: a store to an unpopulated byte fails). -/
def Obligations.StepKeepsArgumentsAndPopulation : Prop :=
  ∀ s t : State, step s = .next t →
    SameArguments s t ∧ ∀ a : Word, (t.byteAt a).isSome = (s.byteAt a).isSome

/-! ## Memory -/

/-- R35: after a word write, reads of every width see its bytes, the least significant at the lowest address. -/
def Obligations.MixedWidthReadsSeeTheStoredWord : Prop :=
  ∀ (s t : State) (a v : Word), s.memRules = [] → s.memWrite a 4 v = some t →
    t.memRead a 4 .load = some v ∧
    t.memRead a 2 .load = some ((v.extractLsb' 0 16).setWidth 32) ∧
    t.memRead (a + 2#32) 2 .load = some ((v.extractLsb' 16 16).setWidth 32) ∧
    t.memRead a 1 .load = some ((v.extractLsb' 0 8).setWidth 32) ∧
    t.memRead (a + 1#32) 1 .load = some ((v.extractLsb' 8 8).setWidth 32) ∧
    t.memRead (a + 3#32) 1 .load = some ((v.extractLsb' 24 8).setWidth 32)

/-- R44: an instruction word stored at the next pc is what the very next step runs. -/
def Obligations.StoredWordIsFetchedByTheNextStep : Prop :=
  ∀ (s t : State) (rs1 rs2 : RegIdx) (imm : Word) (i : Instr),
    s.run = .running → s.pc.toNat % 4 = 0 → (∀ n, s.budget = some n → s.instret + 1 < n) →
    s.readReg rs1 + imm = s.pc + 4#32 → decodeInstr (s.readReg rs2) = .ok i →
    exec (.sw rs1 rs2 imm) s = .next t → t.run = .running → t.memFault t.pc 4 .fetch = false →
    step t = exec i t

/-- Memories in canonical form that read the same everywhere are the same data (log entry 2). -/
def Obligations.CanonicalMemoriesAreEqualWhenTheyReadEqual : Prop :=
  ∀ m n : Memory, Memory.wf m = true → Memory.wf n = true →
    (∀ a : Word, Memory.readByte m a.toNat = Memory.readByte n a.toNat) → m = n

/-- R31, D11: which accesses the memory refuses. An access all of whose bytes are populated and to which no clause of the
environment applies succeeds; one of whose bytes is not populated, or to which a clause applies, fails (log entries 2 and 3);
and a clause applies to the accesses of its kind and width in its range, all of them or the misaligned ones. -/
def Obligations.MemFaultIsUnpopulatedOrRefused : Prop :=
  ∀ (s : State) (a : Word) (n : Nat) (kind : AccessKind),
    ((∀ k, k < n → ∃ b, s.byteAt (a + BitVec.ofNat 32 k) = some b) → (∀ f ∈ s.memRules, f.applies a n kind = false) →
      s.memFault a n kind = false) ∧
    (∀ k, k < n → s.byteAt (a + BitVec.ofNat 32 k) = none → s.memFault a n kind = true) ∧
    (∀ f ∈ s.memRules, f.applies a n kind = true → s.memFault a n kind = true) ∧
    ∀ f : FaultRule, f.applies a n kind = true ↔
      f.kind = kind ∧ f.bytes = n ∧ f.first.toNat ≤ a.toNat ∧ a.toNat ≤ f.last.toNat ∧
        (f.misalignedOnly = true → a.toNat % n ≠ 0)
end

