-- ==== Sys2Proof/Laws/Decode.lean ====
section
/-! SUPPORT. The decoder on the encoder's layouts: the fields of each layout, the immediates they carry, and the record
that decoding gives. -/

namespace Sys2Proof

/-! ## Registers and fields -/

@[simp] theorem regOf_fieldOf (r : RegIdx) : regOf (fieldOf r) = r := rfl

@[simp] theorem fieldOf_regOf (f : BitVec 5) : fieldOf (regOf f) = f := rfl

/-! ## The fields of each layout -/

theorem layoutR_opcode (funct7 : BitVec 7) (rs2 rs1 : BitVec 5) (funct3 : BitVec 3) (rd : BitVec 5) (opcode : BitVec 7) :
    extract (layoutR funct7 rs2 rs1 funct3 rd opcode) 0 7 = opcode := by
  ext i hi
  simp only [extract, layoutR, BitVec.getElem_extractLsb', BitVec.getLsbD_append]
  interval_cases i <;> simp

theorem layoutR_rd (funct7 : BitVec 7) (rs2 rs1 : BitVec 5) (funct3 : BitVec 3) (rd : BitVec 5) (opcode : BitVec 7) :
    extract (layoutR funct7 rs2 rs1 funct3 rd opcode) 7 5 = rd := by
  ext i hi
  simp only [extract, layoutR, BitVec.getElem_extractLsb', BitVec.getLsbD_append]
  interval_cases i <;> simp

theorem layoutR_funct3 (funct7 : BitVec 7) (rs2 rs1 : BitVec 5) (funct3 : BitVec 3) (rd : BitVec 5) (opcode : BitVec 7) :
    extract (layoutR funct7 rs2 rs1 funct3 rd opcode) 12 3 = funct3 := by
  ext i hi
  simp only [extract, layoutR, BitVec.getElem_extractLsb', BitVec.getLsbD_append]
  interval_cases i <;> simp

theorem layoutR_rs1 (funct7 : BitVec 7) (rs2 rs1 : BitVec 5) (funct3 : BitVec 3) (rd : BitVec 5) (opcode : BitVec 7) :
    extract (layoutR funct7 rs2 rs1 funct3 rd opcode) 15 5 = rs1 := by
  ext i hi
  simp only [extract, layoutR, BitVec.getElem_extractLsb', BitVec.getLsbD_append]
  interval_cases i <;> simp

theorem layoutR_rs2 (funct7 : BitVec 7) (rs2 rs1 : BitVec 5) (funct3 : BitVec 3) (rd : BitVec 5) (opcode : BitVec 7) :
    extract (layoutR funct7 rs2 rs1 funct3 rd opcode) 20 5 = rs2 := by
  ext i hi
  simp only [extract, layoutR, BitVec.getElem_extractLsb', BitVec.getLsbD_append]
  interval_cases i <;> simp

theorem layoutR_funct7 (funct7 : BitVec 7) (rs2 rs1 : BitVec 5) (funct3 : BitVec 3) (rd : BitVec 5) (opcode : BitVec 7) :
    extract (layoutR funct7 rs2 rs1 funct3 rd opcode) 25 7 = funct7 := by
  ext i hi
  simp only [extract, layoutR, BitVec.getElem_extractLsb', BitVec.getLsbD_append]
  interval_cases i <;> simp

theorem layoutI_opcode (imm : Word) (rs1 : BitVec 5) (funct3 : BitVec 3) (rd : BitVec 5) (opcode : BitVec 7) :
    extract (layoutI imm rs1 funct3 rd opcode) 0 7 = opcode := by
  ext i hi
  simp only [extract, layoutI, BitVec.getElem_extractLsb', BitVec.getLsbD_append,
    BitVec.getLsbD_extractLsb']
  interval_cases i <;> simp

theorem layoutI_rd (imm : Word) (rs1 : BitVec 5) (funct3 : BitVec 3) (rd : BitVec 5) (opcode : BitVec 7) :
    extract (layoutI imm rs1 funct3 rd opcode) 7 5 = rd := by
  ext i hi
  simp only [extract, layoutI, BitVec.getElem_extractLsb', BitVec.getLsbD_append,
    BitVec.getLsbD_extractLsb']
  interval_cases i <;> simp

theorem layoutI_funct3 (imm : Word) (rs1 : BitVec 5) (funct3 : BitVec 3) (rd : BitVec 5) (opcode : BitVec 7) :
    extract (layoutI imm rs1 funct3 rd opcode) 12 3 = funct3 := by
  ext i hi
  simp only [extract, layoutI, BitVec.getElem_extractLsb', BitVec.getLsbD_append,
    BitVec.getLsbD_extractLsb']
  interval_cases i <;> simp

theorem layoutI_rs1 (imm : Word) (rs1 : BitVec 5) (funct3 : BitVec 3) (rd : BitVec 5) (opcode : BitVec 7) :
    extract (layoutI imm rs1 funct3 rd opcode) 15 5 = rs1 := by
  ext i hi
  simp only [extract, layoutI, BitVec.getElem_extractLsb', BitVec.getLsbD_append,
    BitVec.getLsbD_extractLsb']
  interval_cases i <;> simp

theorem layoutI_imm (imm : Word) (rs1 : BitVec 5) (funct3 : BitVec 3) (rd : BitVec 5) (opcode : BitVec 7) :
    extract (layoutI imm rs1 funct3 rd opcode) 20 12 = extract imm 0 12 := by
  ext i hi
  simp only [extract, layoutI, BitVec.getElem_extractLsb', BitVec.getLsbD_append,
    BitVec.getLsbD_extractLsb']
  interval_cases i <;> simp

theorem layoutS_opcode (imm : Word) (rs2 rs1 : BitVec 5) (funct3 : BitVec 3) (opcode : BitVec 7) :
    extract (layoutS imm rs2 rs1 funct3 opcode) 0 7 = opcode := by
  ext i hi
  simp only [extract, layoutS, BitVec.getElem_extractLsb', BitVec.getLsbD_append,
    BitVec.getLsbD_extractLsb']
  interval_cases i <;> simp

theorem layoutS_funct3 (imm : Word) (rs2 rs1 : BitVec 5) (funct3 : BitVec 3) (opcode : BitVec 7) :
    extract (layoutS imm rs2 rs1 funct3 opcode) 12 3 = funct3 := by
  ext i hi
  simp only [extract, layoutS, BitVec.getElem_extractLsb', BitVec.getLsbD_append,
    BitVec.getLsbD_extractLsb']
  interval_cases i <;> simp

theorem layoutS_rs1 (imm : Word) (rs2 rs1 : BitVec 5) (funct3 : BitVec 3) (opcode : BitVec 7) :
    extract (layoutS imm rs2 rs1 funct3 opcode) 15 5 = rs1 := by
  ext i hi
  simp only [extract, layoutS, BitVec.getElem_extractLsb', BitVec.getLsbD_append,
    BitVec.getLsbD_extractLsb']
  interval_cases i <;> simp

theorem layoutS_rs2 (imm : Word) (rs2 rs1 : BitVec 5) (funct3 : BitVec 3) (opcode : BitVec 7) :
    extract (layoutS imm rs2 rs1 funct3 opcode) 20 5 = rs2 := by
  ext i hi
  simp only [extract, layoutS, BitVec.getElem_extractLsb', BitVec.getLsbD_append,
    BitVec.getLsbD_extractLsb']
  interval_cases i <;> simp

theorem layoutB_opcode (imm : Word) (rs2 rs1 : BitVec 5) (funct3 : BitVec 3) (opcode : BitVec 7) :
    extract (layoutB imm rs2 rs1 funct3 opcode) 0 7 = opcode := by
  ext i hi
  simp only [extract, layoutB, BitVec.getElem_extractLsb', BitVec.getLsbD_append,
    BitVec.getLsbD_extractLsb']
  interval_cases i <;> simp

theorem layoutB_funct3 (imm : Word) (rs2 rs1 : BitVec 5) (funct3 : BitVec 3) (opcode : BitVec 7) :
    extract (layoutB imm rs2 rs1 funct3 opcode) 12 3 = funct3 := by
  ext i hi
  simp only [extract, layoutB, BitVec.getElem_extractLsb', BitVec.getLsbD_append,
    BitVec.getLsbD_extractLsb']
  interval_cases i <;> simp

theorem layoutB_rs1 (imm : Word) (rs2 rs1 : BitVec 5) (funct3 : BitVec 3) (opcode : BitVec 7) :
    extract (layoutB imm rs2 rs1 funct3 opcode) 15 5 = rs1 := by
  ext i hi
  simp only [extract, layoutB, BitVec.getElem_extractLsb', BitVec.getLsbD_append,
    BitVec.getLsbD_extractLsb']
  interval_cases i <;> simp

theorem layoutB_rs2 (imm : Word) (rs2 rs1 : BitVec 5) (funct3 : BitVec 3) (opcode : BitVec 7) :
    extract (layoutB imm rs2 rs1 funct3 opcode) 20 5 = rs2 := by
  ext i hi
  simp only [extract, layoutB, BitVec.getElem_extractLsb', BitVec.getLsbD_append,
    BitVec.getLsbD_extractLsb']
  interval_cases i <;> simp

theorem layoutS_imm (imm : Word) (rs2 rs1 : BitVec 5) (funct3 : BitVec 3) (opcode : BitVec 7) :
    extract (layoutS imm rs2 rs1 funct3 opcode) 25 7 ++ extract (layoutS imm rs2 rs1 funct3 opcode) 7 5 = extract imm 0 12 := by
  ext i hi
  simp only [extract, layoutS, BitVec.getElem_extractLsb', BitVec.getLsbD_append, BitVec.getElem_append,
    BitVec.getLsbD_extractLsb']
  interval_cases i <;> simp

theorem layoutB_imm (imm : Word) (rs2 rs1 : BitVec 5) (funct3 : BitVec 3) (opcode : BitVec 7) :
    extract (layoutB imm rs2 rs1 funct3 opcode) 31 1 ++ extract (layoutB imm rs2 rs1 funct3 opcode) 7 1 ++
      extract (layoutB imm rs2 rs1 funct3 opcode) 25 6 ++ extract (layoutB imm rs2 rs1 funct3 opcode) 8 4 ++ 0#1 = extract imm 1 12 ++ 0#1 := by
  ext i hi
  simp only [extract, layoutB, BitVec.getElem_extractLsb', BitVec.getLsbD_append, BitVec.getElem_append,
    BitVec.getLsbD_extractLsb']
  interval_cases i <;> simp

theorem layoutU_opcode (imm : Word) (rd : BitVec 5) (opcode : BitVec 7) :
    extract (layoutU imm rd opcode) 0 7 = opcode := by
  ext i hi
  simp only [extract, layoutU, BitVec.getElem_extractLsb', BitVec.getLsbD_append,
    BitVec.getLsbD_extractLsb']
  interval_cases i <;> simp

theorem layoutU_rd (imm : Word) (rd : BitVec 5) (opcode : BitVec 7) :
    extract (layoutU imm rd opcode) 7 5 = rd := by
  ext i hi
  simp only [extract, layoutU, BitVec.getElem_extractLsb', BitVec.getLsbD_append,
    BitVec.getLsbD_extractLsb']
  interval_cases i <;> simp

theorem layoutJ_opcode (imm : Word) (rd : BitVec 5) (opcode : BitVec 7) :
    extract (layoutJ imm rd opcode) 0 7 = opcode := by
  ext i hi
  simp only [extract, layoutJ, BitVec.getElem_extractLsb', BitVec.getLsbD_append,
    BitVec.getLsbD_extractLsb']
  interval_cases i <;> simp

theorem layoutJ_rd (imm : Word) (rd : BitVec 5) (opcode : BitVec 7) :
    extract (layoutJ imm rd opcode) 7 5 = rd := by
  ext i hi
  simp only [extract, layoutJ, BitVec.getElem_extractLsb', BitVec.getLsbD_append,
    BitVec.getLsbD_extractLsb']
  interval_cases i <;> simp

theorem layoutU_imm (imm : Word) (rd : BitVec 5) (opcode : BitVec 7) :
    extract (layoutU imm rd opcode) 12 20 = extract imm 12 20 := by
  ext i hi
  simp only [extract, layoutU, BitVec.getElem_extractLsb', BitVec.getLsbD_append,
    BitVec.getLsbD_extractLsb']
  interval_cases i <;> simp

theorem layoutJ_imm (imm : Word) (rd : BitVec 5) (opcode : BitVec 7) :
    extract (layoutJ imm rd opcode) 31 1 ++ extract (layoutJ imm rd opcode) 12 8 ++
      extract (layoutJ imm rd opcode) 20 1 ++ extract (layoutJ imm rd opcode) 21 10 ++ 0#1 = extract imm 1 20 ++ 0#1 := by
  ext i hi
  simp only [extract, layoutJ, BitVec.getElem_extractLsb', BitVec.getLsbD_append, BitVec.getElem_append,
    BitVec.getLsbD_extractLsb']
  interval_cases i <;> simp

/-! ## Immediates that fit are recovered -/

/-- Sign-extending the low n bits gives back a value in the range of n-bit two's complement. -/
theorem sext_of_range (n : Nat) (hn : 0 < n) (hn' : n ≤ 32) (imm : Word) (hlo : -(2 ^ (n - 1) : Int) ≤ imm.toInt)
    (hhi : imm.toInt < 2 ^ (n - 1)) : sext n imm = imm := by
  apply BitVec.eq_of_toInt_eq
  have hpow : (2 ^ n : Int) = 2 * 2 ^ (n - 1) := by
    rw [← pow_succ']; congr 1; omega
  unfold sext
  rw [BitVec.toInt_signExtend_of_le hn', BitVec.toInt_setWidth]
  have hdvd : 2 ^ n ∣ 2 ^ 32 := Nat.pow_dvd_pow 2 hn'
  rw [← Int.bmod_bmod_of_dvd hdvd, ← BitVec.toInt_eq_toNat_bmod]
  apply Int.bmod_eq_of_le
  · push_cast; omega
  · push_cast; omega

/-- An extracted field extended is the value extended. -/
theorem sext_extract (n : Nat) (h : 0 + n ≤ 32) (imm : Word) : sext n (extract imm 0 n h) = sext n imm := by
  unfold sext extract
  congr 1
  ext i hi
  simp

theorem immI_layoutI {imm : Word} (h : immFits12 imm = true) (rs1 funct3 rd opcode) :
    immI (layoutI imm rs1 funct3 rd opcode) = imm := by
  simp only [immFits12, Bool.and_eq_true, decide_eq_true_eq] at h
  rw [immI, layoutI_imm, sext_extract, sext_of_range 12 (by decide) (by decide) imm (by omega) (by omega)]

theorem immS_layoutS {imm : Word} (h : immFits12 imm = true) (rs2 rs1 funct3 opcode) :
    immS (layoutS imm rs2 rs1 funct3 opcode) = imm := by
  simp only [immFits12, Bool.and_eq_true, decide_eq_true_eq] at h
  rw [immS, layoutS_imm, sext_extract, sext_of_range 12 (by decide) (by decide) imm (by omega) (by omega)]

/-- The lowest bit of an even value is zero. -/
theorem getElem_zero_of_even {imm : Word} (h : imm.toInt % 2 = 0) : imm[0] = false := by
  have h2 : imm.toNat % 2 = 0 := by
    have := BitVec.toInt_eq_toNat_cond imm
    split at this <;> omega
  rw [BitVec.getElem_eq_testBit_toNat, Nat.testBit_zero]
  simp [h2]

theorem immB_layoutB {imm : Word} (h : immFitsBranch imm = true) (rs2 rs1 funct3 opcode) :
    immB (layoutB imm rs2 rs1 funct3 opcode) = imm := by
  simp only [immFitsBranch, Bool.and_eq_true, decide_eq_true_eq] at h
  have h0 := getElem_zero_of_even h.2
  have hfield : extract imm 1 12 ++ 0#1 = extract imm 0 13 := by
    ext i hi
    simp only [extract, BitVec.getElem_append, BitVec.getElem_extractLsb']
    interval_cases i <;> simp [h0]
  rw [immB, layoutB_imm, hfield]
  exact (sext_extract 13 (by decide) imm).trans
    (sext_of_range 13 (by decide) (by decide) imm (by omega) (by omega))

theorem immJ_layoutJ {imm : Word} (h : immFitsJump imm = true) (rd opcode) :
    immJ (layoutJ imm rd opcode) = imm := by
  simp only [immFitsJump, Bool.and_eq_true, decide_eq_true_eq] at h
  have h0 := getElem_zero_of_even h.2
  have hfield : extract imm 1 20 ++ 0#1 = extract imm 0 21 := by
    ext i hi
    simp only [extract, BitVec.getElem_append, BitVec.getElem_extractLsb']
    interval_cases i <;> simp [h0]
  rw [immJ, layoutJ_imm, hfield]
  exact (sext_extract 21 (by decide) imm).trans
    (sext_of_range 21 (by decide) (by decide) imm (by omega) (by omega))

theorem immU_layoutU {imm : Word} (h : immFitsUpper imm = true) (rd opcode) :
    immU (layoutU imm rd opcode) = imm := by
  simp only [immFitsUpper, decide_eq_true_eq] at h
  rw [immU, layoutU_imm]
  apply BitVec.eq_of_toNat_eq
  have := imm.isLt
  simp only [extract, BitVec.toNat_append, BitVec.extractLsb'_toNat, Nat.shiftRight_eq_div_pow]
  rw [← Nat.shiftLeft_add_eq_or_of_lt (by decide), Nat.shiftLeft_eq]
  simp
  omega

/-! ## The record of each layout -/

theorem decode_layoutR {opcode : BitVec 7} (h : classify opcode = .r) (funct7 rs2 rs1 funct3 rd) :
    decode (layoutR funct7 rs2 rs1 funct3 rd opcode) =
      ⟨.r, opcode, funct3, funct7, rd, rs1, rs2, 0, layoutR funct7 rs2 rs1 funct3 rd opcode⟩ := by
  simp only [decode, layoutR_opcode, layoutR_rd, layoutR_funct3, layoutR_rs1, layoutR_rs2, layoutR_funct7, h]

/-- The shift-immediate layout is the R layout under an I-format opcode. -/
theorem decode_layoutR_shift {opcode : BitVec 7} (h : classify opcode = .i) (funct7 shamt rs1 funct3 rd) :
    decode (layoutR funct7 shamt rs1 funct3 rd opcode) =
      ⟨.i, opcode, funct3, funct7, rd, rs1, 0, immI (layoutR funct7 shamt rs1 funct3 rd opcode),
        layoutR funct7 shamt rs1 funct3 rd opcode⟩ := by
  simp only [decode, layoutR_opcode, layoutR_rd, layoutR_funct3, layoutR_rs1, layoutR_funct7, h]

/-- `imm[4:0]` of a shift-immediate word is its shift amount (R127). -/
theorem immI_shamt (w : Word) : extract (immI w) 0 5 = extract w 20 5 := by
  ext i hi
  simp only [immI, sext, extract, BitVec.getElem_extractLsb', BitVec.getLsbD_signExtend, BitVec.getLsbD_setWidth,
    BitVec.getLsbD_extractLsb']
  interval_cases i <;> simp

theorem decode_layoutI {opcode : BitVec 7} {imm : Word} (h : classify opcode = .i) (himm : immFits12 imm = true)
    (rs1 funct3 rd) :
    decode (layoutI imm rs1 funct3 rd opcode) =
      ⟨.i, opcode, funct3, extract (layoutI imm rs1 funct3 rd opcode) 25 7, rd, rs1, 0, imm,
        layoutI imm rs1 funct3 rd opcode⟩ := by
  simp only [decode, layoutI_opcode, layoutI_rd, layoutI_funct3, layoutI_rs1, immI_layoutI himm, h]

theorem decode_layoutS {opcode : BitVec 7} {imm : Word} (h : classify opcode = .s) (himm : immFits12 imm = true)
    (rs2 rs1 funct3) :
    decode (layoutS imm rs2 rs1 funct3 opcode) =
      ⟨.s, opcode, funct3, 0, 0, rs1, rs2, imm, layoutS imm rs2 rs1 funct3 opcode⟩ := by
  simp only [decode, layoutS_opcode, layoutS_funct3, layoutS_rs1, layoutS_rs2, immS_layoutS himm, h]

theorem decode_layoutB {opcode : BitVec 7} {imm : Word} (h : classify opcode = .b) (himm : immFitsBranch imm = true)
    (rs2 rs1 funct3) :
    decode (layoutB imm rs2 rs1 funct3 opcode) =
      ⟨.b, opcode, funct3, 0, 0, rs1, rs2, imm, layoutB imm rs2 rs1 funct3 opcode⟩ := by
  simp only [decode, layoutB_opcode, layoutB_funct3, layoutB_rs1, layoutB_rs2, immB_layoutB himm, h]

theorem decode_layoutU {opcode : BitVec 7} {imm : Word} (h : classify opcode = .u) (himm : immFitsUpper imm = true)
    (rd) :
    decode (layoutU imm rd opcode) = ⟨.u, opcode, 0, 0, rd, 0, 0, imm, layoutU imm rd opcode⟩ := by
  simp only [decode, layoutU_opcode, layoutU_rd, immU_layoutU himm, h]

theorem decode_layoutJ {opcode : BitVec 7} {imm : Word} (h : classify opcode = .j) (himm : immFitsJump imm = true)
    (rd) :
    decode (layoutJ imm rd opcode) = ⟨.j, opcode, 0, 0, rd, 0, 0, imm, layoutJ imm rd opcode⟩ := by
  simp only [decode, layoutJ_opcode, layoutJ_rd, immJ_layoutJ himm, h]

/-- The decoder reads an instruction exactly when the resolver gives an operation that assembles to it. -/
theorem decodeInstr_eq_ok_iff (w : Word) (i : Instr) :
    decodeInstr w = .ok i ↔ assemble (mnemonic (decode w)) (decode w) = some i := by
  unfold decodeInstr; split <;> simp_all

/-! ## What holds of every decoded word -/

/-- The record keeps the whole word (R54). -/
@[simp] theorem decode_raw (w : Word) : (decode w).raw = w := by
  unfold decode; dsimp only; split <;> rfl

/-- The record's opcode is the word's lowest seven bits (R54). -/
@[simp] theorem decode_opcode (w : Word) : (decode w).opcode = extract w 0 7 := by
  unfold decode; dsimp only; split <;> rfl

/-- The record's format is the class of its opcode (R53). -/
@[simp] theorem decode_format (w : Word) : (decode w).format = classify (extract w 0 7) := by
  unfold decode; dsimp only; split <;> simp_all

/-- Only UNKNOWN has no instruction. -/
theorem assemble_eq_none_iff (op : OperationId) (d : DecodedInstruction) : assemble op d = none ↔ op = .unknown := by
  cases op <;> simp [assemble]

/-- A word has no instruction exactly when it resolves to UNKNOWN (R81). -/
theorem decodeInstr_eq_error_iff (w : Word) : (∃ e, decodeInstr w = .error e) ↔ mnemonic (decode w) = .unknown := by
  rw [← assemble_eq_none_iff _ (decode w)]
  unfold decodeInstr
  split <;> simp_all

end Sys2Proof
end

