-- ==== Sys2Proof/Laws/Memory.lean ====
section
/-! SUPPORT. Memory as a partial map: read after write, the canonical form kept by every operation, equal reads give equal
memories, and the byte-order helpers. -/

namespace Sys2Proof.Machine

/-! ## One byte -/

/-- A read after a write of one byte, whatever the list. -/
theorem Memory.readByte_writeByte (m : Memory) (a : Nat) (b : Byte) (c : Nat) :
    Memory.readByte (Memory.writeByte m a b) c = if c = a then some b else Memory.readByte m c := by
  induction m with
  | nil => rfl
  | cons e rest ih =>
    obtain ⟨k, v⟩ := e
    simp only [Memory.writeByte]
    split
    · rfl
    · split
      · subst_vars; simp only [Memory.readByte]; split <;> rfl
      · simp only [Memory.readByte, ih]; split
        · subst_vars; rw [if_neg]; omega
        · rfl

/-- Nothing is listed below the bound of a rising list. -/
theorem Memory.readByte_below {m : Memory} {lo a : Nat} (h : Memory.risingFrom lo m = true) (ha : a < lo) :
    Memory.readByte m a = none := by
  induction m generalizing lo with
  | nil => rfl
  | cons e rest ih =>
    obtain ⟨k, v⟩ := e
    simp only [Memory.risingFrom, Bool.and_eq_true, decide_eq_true_eq] at h
    rw [Memory.readByte, if_neg (by omega)]
    exact ih h.2 (by omega)

/-- A rising list rises from any lower bound. -/
theorem Memory.risingFrom_mono {m : Memory} {lo hi : Nat} (hle : lo ≤ hi) (h : Memory.risingFrom hi m = true) :
    Memory.risingFrom lo m = true := by
  cases m with
  | nil => rfl
  | cons e rest =>
    simp only [Memory.risingFrom, Bool.and_eq_true, decide_eq_true_eq] at h ⊢
    exact ⟨⟨by omega, h.1.2⟩, h.2⟩

/-- Writing a byte keeps the list rising from any bound the address respects. -/
theorem Memory.risingFrom_writeByte {m : Memory} {lo a : Nat} (b : Byte) (hlo : lo ≤ a)
    (ha : a < Config.addressCount) (h : Memory.risingFrom lo m = true) :
    Memory.risingFrom lo (Memory.writeByte m a b) = true := by
  induction m generalizing lo with
  | nil => simp [Memory.writeByte, Memory.risingFrom, hlo, ha]
  | cons e rest ih =>
    obtain ⟨k, v⟩ := e
    simp only [Memory.risingFrom, Bool.and_eq_true, decide_eq_true_eq] at h
    simp only [Memory.writeByte]
    split
    · simp only [Memory.risingFrom, Bool.and_eq_true, decide_eq_true_eq]
      exact ⟨⟨hlo, ha⟩, ⟨by omega, h.1.2⟩, h.2⟩
    · split
      · subst_vars
        simp only [Memory.risingFrom, Bool.and_eq_true, decide_eq_true_eq]
        exact ⟨⟨hlo, ha⟩, h.2⟩
      · simp only [Memory.risingFrom, Bool.and_eq_true, decide_eq_true_eq]
        exact ⟨h.1, ih (by omega) h.2⟩

/-- Writing one byte at a 32-bit address keeps the canonical form. -/
theorem Memory.wf_writeByte {m : Memory} (a : Word) (b : Byte) (h : Memory.wf m = true) :
    Memory.wf (Memory.writeByte m a.toNat b) = true :=
  Memory.risingFrom_writeByte b (Nat.zero_le _) a.isLt h

/-- Writing bytes from a 32-bit address on keeps the canonical form. -/
theorem Memory.wf_writeBytes {m : Memory} (a : Word) (bs : List Byte) (h : Memory.wf m = true) :
    Memory.wf (Memory.writeBytes m a bs) = true := by
  induction bs generalizing m a with
  | nil => exact h
  | cons b bs ih => exact ih (a + 1#32) (Memory.wf_writeByte a b h)

/-! ## Several bytes -/

/-- `addr + (k + 1)` is `(addr + 1) + k`. -/
theorem addr_succ (a : Word) (k : Nat) : a + BitVec.ofNat 32 (k + 1) = a + 1#32 + BitVec.ofNat 32 k := by
  rw [BitVec.add_assoc, ← BitVec.ofNat_add, Nat.add_comm 1 k]

/-- Offsets below 2^32 give different addresses. -/
theorem addr_add_ne (a : Word) {k : Nat} (hk : 0 < k) (hk' : k < 2 ^ 32) : a + BitVec.ofNat 32 k ≠ a := by
  intro h
  have h' := congrArg BitVec.toNat h
  simp only [BitVec.toNat_add, BitVec.toNat_ofNat] at h'
  have := a.isLt
  omega

/-- A byte outside the written ones reads as before. -/
theorem Memory.readByte_writeBytes_other (m : Memory) (a : Word) (bs : List Byte) (c : Word)
    (h : ∀ k : Nat, k < bs.length → c ≠ a + BitVec.ofNat 32 k) :
    Memory.readByte (Memory.writeBytes m a bs) c.toNat = Memory.readByte m c.toNat := by
  induction bs generalizing m a with
  | nil => rfl
  | cons b bs ih =>
    have h0 : c ≠ a := by simpa using h 0 (by simp)
    rw [Memory.writeBytes, ih _ _ fun k hk => by rw [← addr_succ]; exact h (k + 1) (by simpa using hk),
      Memory.readByte_writeByte, if_neg fun e => h0 (BitVec.eq_of_toNat_eq e)]

/-- A written byte reads back, for a write that does not meet itself around the address space. -/
theorem Memory.readByte_writeBytes_at (m : Memory) (a : Word) (bs : List Byte) (hlen : bs.length ≤ 2 ^ 32) (k : Nat)
    (hk : k < bs.length) :
    Memory.readByte (Memory.writeBytes m a bs) (a + BitVec.ofNat 32 k).toNat = bs[k]? := by
  induction bs generalizing m a k with
  | nil => simp at hk
  | cons b bs ih =>
    simp only [List.length_cons] at hlen hk
    rw [Memory.writeBytes]
    cases k with
    | zero =>
      rw [Memory.readByte_writeBytes_other, Memory.readByte_writeByte]
      · simp
      · intro j hj
        rw [← addr_succ]
        simpa using (addr_add_ne a (k := j + 1) (by omega) (by omega)).symm
    | succ k => rw [addr_succ a k, ih _ _ (by omega) _ (by omega)]; simp

/-- The bytes from an address on are there exactly when each of them is. -/
theorem Memory.bytesAt_eq_some_iff (m : Memory) (a : Word) (n : Nat) (bs : List Byte) :
    Memory.bytesAt m a n = some bs ↔
      bs.length = n ∧ ∀ k : Nat, k < n → Memory.readByte m (a + BitVec.ofNat 32 k).toNat = bs[k]? := by
  induction n generalizing a bs with
  | zero => cases bs <;> simp [Memory.bytesAt]
  | succ n ih =>
    have split_first : ∀ {P : Nat → Prop}, (∀ k, k < n + 1 → P k) ↔ P 0 ∧ ∀ k, k < n → P (k + 1) := by
      intro P
      refine ⟨fun h => ⟨h 0 (by omega), fun k hk => h (k + 1) (by omega)⟩, fun h k hk => ?_⟩
      cases k with
      | zero => exact h.1
      | succ k => exact h.2 k (by omega)
    cases bs with
    | nil => simp only [Memory.bytesAt]; split <;> simp
    | cons b bs =>
      have shift : (∀ k, k < n → Memory.readByte m (a + BitVec.ofNat 32 (k + 1)).toNat = (b :: bs)[k + 1]?) ↔
          ∀ k, k < n → Memory.readByte m (a + 1#32 + BitVec.ofNat 32 k).toNat = bs[k]? :=
        forall_congr' fun k => by rw [addr_succ a k, List.getElem?_cons_succ]
      rw [split_first, shift]
      simp only [Memory.bytesAt, List.length_cons, Nat.add_right_cancel_iff, List.getElem?_cons_zero, BitVec.add_zero]
      constructor
      · intro h
        split at h
        · rename_i hb hbs
          cases h
          exact ⟨((ih _ _).1 hbs).1, hb, ((ih _ _).1 hbs).2⟩
        · cases h
      · rintro ⟨hl, hb, hbs⟩
        rw [hb, (ih _ _).2 ⟨hl, hbs⟩]

/-- Writing to populated bytes populates nothing new: the domain of the map is the same. -/
theorem Memory.isSome_writeBytes {m : Memory} {a : Word} (bs : List Byte)
    (h : (Memory.bytesAt m a bs.length).isSome = true) (c : Nat) :
    (Memory.readByte (Memory.writeBytes m a bs) c).isSome = (Memory.readByte m c).isSome := by
  induction bs generalizing m a with
  | nil => rfl
  | cons b bs ih =>
    simp only [List.length_cons, Memory.bytesAt] at h
    split at h
    · rename_i b' bs' hb hbs
      have hdom : ∀ c, (Memory.readByte (Memory.writeByte m a.toNat b) c).isSome = (Memory.readByte m c).isSome := by
        intro c
        rw [Memory.readByte_writeByte]
        split
        · subst_vars; simp [hb]
        · rfl
      rw [Memory.writeBytes, ih, hdom]
      obtain ⟨hl, hk⟩ := (Memory.bytesAt_eq_some_iff m (a + 1#32) bs.length bs').1 hbs
      rw [Option.isSome_iff_exists]
      have hall : ∀ k, k < bs.length →
          (Memory.readByte (Memory.writeByte m a.toNat b) (a + 1#32 + BitVec.ofNat 32 k).toNat).isSome := by
        intro k hlt
        rw [hdom, hk k hlt]
        simp [hl, hlt]
      refine ⟨List.ofFn fun k : Fin bs.length => ((Memory.readByte (Memory.writeByte m a.toNat b)
        (a + 1#32 + BitVec.ofNat 32 k.val).toNat).get (hall k.val k.isLt)), ?_⟩
      rw [Memory.bytesAt_eq_some_iff]
      refine ⟨by simp, fun k hlt => ?_⟩
      simp [hlt]
    · simp at h

/-! ## Byte order -/

@[simp] theorem leBytes_length (n : Nat) (v : Word) : (leBytes n v).length = n := by
  induction n generalizing v with
  | zero => rfl
  | succ n ih => simp [leBytes, ih]

/-- Byte k of a stored value is `v[8k+7 : 8k]` (R34). -/
theorem leBytes_getElem? (n : Nat) (v : Word) (k : Nat) (hk : k < n) :
    (leBytes n v)[k]? = some (v.extractLsb' (8 * k) 8) := by
  induction n generalizing v k with
  | zero => omega
  | succ n ih =>
    cases k with
    | zero => simp [leBytes]
    | succ k =>
      rw [leBytes, List.getElem?_cons_succ, ih _ _ (by omega)]
      congr 1
      ext i hi
      simp only [BitVec.getElem_extractLsb', BitVec.getLsbD_ushiftRight]
      congr 1
      omega

end Sys2Proof.Machine
end

