-- ==== Sys2Proof/Laws/State.lean ====
section
/-! SUPPORT. One lemma per field per update of the state, and the register and byte reads over each update. -/

namespace Sys2Proof.Machine

/-! ## writeReg -/

@[simp] theorem State.writeReg_pc (s : State) (r : RegIdx) (v : Word) : (s.writeReg r v).pc = s.pc := rfl
@[simp] theorem State.writeReg_run (s : State) (r : RegIdx) (v : Word) : (s.writeReg r v).run = s.run := rfl
@[simp] theorem State.writeReg_instret (s : State) (r : RegIdx) (v : Word) : (s.writeReg r v).instret = s.instret := rfl
@[simp] theorem State.writeReg_mem (s : State) (r : RegIdx) (v : Word) : (s.writeReg r v).mem = s.mem := rfl
@[simp] theorem State.writeReg_hostIn (s : State) (r : RegIdx) (v : Word) : (s.writeReg r v).hostIn = s.hostIn := rfl
@[simp] theorem State.writeReg_hostOut (s : State) (r : RegIdx) (v : Word) : (s.writeReg r v).hostOut = s.hostOut := rfl
@[simp] theorem State.writeReg_memRules (s : State) (r : RegIdx) (v : Word) : (s.writeReg r v).memRules = s.memRules := rfl
@[simp] theorem State.writeReg_hostInEnded (s : State) (r : RegIdx) (v : Word) : (s.writeReg r v).hostInEnded = s.hostInEnded := rfl
@[simp] theorem State.writeReg_getcharEof (s : State) (r : RegIdx) (v : Word) : (s.writeReg r v).getcharEof = s.getcharEof := rfl
@[simp] theorem State.writeReg_budget (s : State) (r : RegIdx) (v : Word) : (s.writeReg r v).budget = s.budget := rfl
@[simp] theorem State.byteAt_writeReg (s : State) (r : RegIdx) (v : Word) (a : Word) : (s.writeReg r v).byteAt a = s.byteAt a := rfl

/-! ## retire -/

@[simp] theorem State.retire_regs (s : State) (p : Word) : (s.retire p).regs = s.regs := rfl
@[simp] theorem State.retire_pc (s : State) (p : Word) : (s.retire p).pc = p := rfl
@[simp] theorem State.retire_run (s : State) (p : Word) : (s.retire p).run = s.run := rfl
@[simp] theorem State.retire_instret (s : State) (p : Word) : (s.retire p).instret = s.instret + 1 := rfl
@[simp] theorem State.retire_mem (s : State) (p : Word) : (s.retire p).mem = s.mem := rfl
@[simp] theorem State.retire_hostIn (s : State) (p : Word) : (s.retire p).hostIn = s.hostIn := rfl
@[simp] theorem State.retire_hostOut (s : State) (p : Word) : (s.retire p).hostOut = s.hostOut := rfl
@[simp] theorem State.retire_memRules (s : State) (p : Word) : (s.retire p).memRules = s.memRules := rfl
@[simp] theorem State.retire_hostInEnded (s : State) (p : Word) : (s.retire p).hostInEnded = s.hostInEnded := rfl
@[simp] theorem State.retire_getcharEof (s : State) (p : Word) : (s.retire p).getcharEof = s.getcharEof := rfl
@[simp] theorem State.retire_budget (s : State) (p : Word) : (s.retire p).budget = s.budget := rfl
@[simp] theorem State.byteAt_retire (s : State) (p : Word) (a : Word) : (s.retire p).byteAt a = s.byteAt a := rfl
@[simp] theorem State.readReg_retire (s : State) (p : Word) (q : RegIdx) : (s.retire p).readReg q = s.readReg q := rfl

/-! ## commit -/

@[simp] theorem State.commit_regs (s : State) (r : RegIdx) (v p : Word) : (s.commit r v p).regs = (s.writeReg r v).regs := rfl
@[simp] theorem State.commit_pc (s : State) (r : RegIdx) (v p : Word) : (s.commit r v p).pc = p := rfl
@[simp] theorem State.commit_run (s : State) (r : RegIdx) (v p : Word) : (s.commit r v p).run = s.run := rfl
@[simp] theorem State.commit_instret (s : State) (r : RegIdx) (v p : Word) : (s.commit r v p).instret = s.instret + 1 := rfl
@[simp] theorem State.commit_mem (s : State) (r : RegIdx) (v p : Word) : (s.commit r v p).mem = s.mem := rfl
@[simp] theorem State.commit_hostIn (s : State) (r : RegIdx) (v p : Word) : (s.commit r v p).hostIn = s.hostIn := rfl
@[simp] theorem State.commit_hostOut (s : State) (r : RegIdx) (v p : Word) : (s.commit r v p).hostOut = s.hostOut := rfl
@[simp] theorem State.commit_memRules (s : State) (r : RegIdx) (v p : Word) : (s.commit r v p).memRules = s.memRules := rfl
@[simp] theorem State.commit_hostInEnded (s : State) (r : RegIdx) (v p : Word) : (s.commit r v p).hostInEnded = s.hostInEnded := rfl
@[simp] theorem State.commit_getcharEof (s : State) (r : RegIdx) (v p : Word) : (s.commit r v p).getcharEof = s.getcharEof := rfl
@[simp] theorem State.commit_budget (s : State) (r : RegIdx) (v p : Word) : (s.commit r v p).budget = s.budget := rfl
@[simp] theorem State.byteAt_commit (s : State) (r : RegIdx) (v p : Word) (a : Word) : (s.commit r v p).byteAt a = s.byteAt a := rfl
@[simp] theorem State.readReg_commit (s : State) (r : RegIdx) (v p : Word) (q : RegIdx) :
    (s.commit r v p).readReg q = (s.writeReg r v).readReg q := rfl

/-! ## halt -/

@[simp] theorem State.halt_regs (s : State) (r : HaltReason) : (s.halt r).regs = s.regs := rfl
@[simp] theorem State.halt_pc (s : State) (r : HaltReason) : (s.halt r).pc = s.pc := rfl
@[simp] theorem State.halt_run (s : State) (r : HaltReason) : (s.halt r).run = .halted r := rfl
@[simp] theorem State.halt_instret (s : State) (r : HaltReason) : (s.halt r).instret = s.instret := rfl
@[simp] theorem State.halt_mem (s : State) (r : HaltReason) : (s.halt r).mem = s.mem := rfl
@[simp] theorem State.halt_hostIn (s : State) (r : HaltReason) : (s.halt r).hostIn = s.hostIn := rfl
@[simp] theorem State.halt_hostOut (s : State) (r : HaltReason) : (s.halt r).hostOut = s.hostOut := rfl
@[simp] theorem State.halt_memRules (s : State) (r : HaltReason) : (s.halt r).memRules = s.memRules := rfl
@[simp] theorem State.halt_hostInEnded (s : State) (r : HaltReason) : (s.halt r).hostInEnded = s.hostInEnded := rfl
@[simp] theorem State.halt_getcharEof (s : State) (r : HaltReason) : (s.halt r).getcharEof = s.getcharEof := rfl
@[simp] theorem State.halt_budget (s : State) (r : HaltReason) : (s.halt r).budget = s.budget := rfl
@[simp] theorem State.byteAt_halt (s : State) (r : HaltReason) (a : Word) : (s.halt r).byteAt a = s.byteAt a := rfl
@[simp] theorem State.readReg_halt (s : State) (r : HaltReason) (q : RegIdx) : (s.halt r).readReg q = s.readReg q := rfl

/-! ## haltExit -/

@[simp] theorem State.haltExit_regs (s : State) : (s.haltExit).regs = s.regs := rfl
@[simp] theorem State.haltExit_pc (s : State) : (s.haltExit).pc = s.pc := rfl
@[simp] theorem State.haltExit_run (s : State) : (s.haltExit).run = .halted .exit := rfl
@[simp] theorem State.haltExit_instret (s : State) : (s.haltExit).instret = s.instret + 1 := rfl
@[simp] theorem State.haltExit_mem (s : State) : (s.haltExit).mem = s.mem := rfl
@[simp] theorem State.haltExit_hostIn (s : State) : (s.haltExit).hostIn = s.hostIn := rfl
@[simp] theorem State.haltExit_hostOut (s : State) : (s.haltExit).hostOut = s.hostOut := rfl
@[simp] theorem State.haltExit_memRules (s : State) : (s.haltExit).memRules = s.memRules := rfl
@[simp] theorem State.haltExit_hostInEnded (s : State) : (s.haltExit).hostInEnded = s.hostInEnded := rfl
@[simp] theorem State.haltExit_getcharEof (s : State) : (s.haltExit).getcharEof = s.getcharEof := rfl
@[simp] theorem State.haltExit_budget (s : State) : (s.haltExit).budget = s.budget := rfl
@[simp] theorem State.byteAt_haltExit (s : State) (a : Word) : (s.haltExit).byteAt a = s.byteAt a := rfl
@[simp] theorem State.readReg_haltExit (s : State) (q : RegIdx) : (s.haltExit).readReg q = s.readReg q := rfl

/-! ## hostPutChar -/

@[simp] theorem State.hostPutChar_regs (s : State) (b : Byte) : (s.hostPutChar b).regs = s.regs := rfl
@[simp] theorem State.hostPutChar_pc (s : State) (b : Byte) : (s.hostPutChar b).pc = s.pc := rfl
@[simp] theorem State.hostPutChar_run (s : State) (b : Byte) : (s.hostPutChar b).run = s.run := rfl
@[simp] theorem State.hostPutChar_instret (s : State) (b : Byte) : (s.hostPutChar b).instret = s.instret := rfl
@[simp] theorem State.hostPutChar_mem (s : State) (b : Byte) : (s.hostPutChar b).mem = s.mem := rfl
@[simp] theorem State.hostPutChar_hostIn (s : State) (b : Byte) : (s.hostPutChar b).hostIn = s.hostIn := rfl
@[simp] theorem State.hostPutChar_hostOut (s : State) (b : Byte) : (s.hostPutChar b).hostOut = s.hostOut ++ [b] := rfl
@[simp] theorem State.hostPutChar_memRules (s : State) (b : Byte) : (s.hostPutChar b).memRules = s.memRules := rfl
@[simp] theorem State.hostPutChar_hostInEnded (s : State) (b : Byte) : (s.hostPutChar b).hostInEnded = s.hostInEnded := rfl
@[simp] theorem State.hostPutChar_getcharEof (s : State) (b : Byte) : (s.hostPutChar b).getcharEof = s.getcharEof := rfl
@[simp] theorem State.hostPutChar_budget (s : State) (b : Byte) : (s.hostPutChar b).budget = s.budget := rfl
@[simp] theorem State.byteAt_hostPutChar (s : State) (b : Byte) (a : Word) : (s.hostPutChar b).byteAt a = s.byteAt a := rfl
@[simp] theorem State.readReg_hostPutChar (s : State) (b : Byte) (q : RegIdx) : (s.hostPutChar b).readReg q = s.readReg q := rfl

/-! ## The register file -/

/-- x0 reads zero in every state. -/
@[simp] theorem State.readReg_zero (s : State) : s.readReg 0 = 0#32 := rfl

/-- What a register reads after a write: the write port and the hard-wired x0, once and for all. -/
theorem State.readReg_writeReg (s : State) (r : RegIdx) (v : Word) (q : RegIdx) :
    (s.writeReg r v).readReg q = if q = 0 then 0#32 else if q = r then v else s.readReg q := by
  by_cases hq : q = 0
  · simp [hq]
  · by_cases hr : r = 0
    · have hqr : q ≠ 0 := hq
      simp [State.readReg, State.writeReg, hq, hr]
    · have hqv : q.val ≠ 0 := fun h => hq (Fin.ext h)
      have hrv : r.val ≠ 0 := fun h => hr (Fin.ext h)
      have hidx : r.val - 1 = q.val - 1 ↔ q = r := by rw [Fin.ext_iff]; omega
      simp [State.readReg, State.writeReg, hq, hr, Vector.getElem_set, hidx]

/-- A write to x0 changes nothing at all. -/
@[simp] theorem State.writeReg_zero (s : State) (v : Word) : s.writeReg 0 v = s := rfl

/-- Registers read the same where the register files are the same. -/
theorem State.readReg_congr {s t : State} (h : t.regs = s.regs) (q : RegIdx) : t.readReg q = s.readReg q := by
  unfold State.readReg; rw [h]

/-- Bytes read the same where the memories are the same. -/
theorem State.byteAt_congr {s t : State} (h : t.mem = s.mem) (a : Word) : t.byteAt a = s.byteAt a := by
  unfold State.byteAt; rw [h]

end Sys2Proof.Machine
end

