-- ==== Sys2Proof/Laws/Ops.lean ====
section
/-! SUPPORT. What each shared operation can do, said once: the memory interface, the commits, the halts and the host
streams, each with the frame the claims use. -/

namespace Sys2Proof.Machine

/-! ## The memory interface -/

/-- An access succeeds exactly when all its bytes are populated and no rule refuses it. -/
theorem State.memFault_eq_false_iff (s : State) (a : Word) (n : Nat) (k : AccessKind) :
    s.memFault a n k = false ↔
      (∃ bs, Memory.bytesAt s.mem a n = some bs) ∧ s.memRules.any (fun f => f.applies a n k) = false := by
  unfold State.memFault
  cases h : Memory.bytesAt s.mem a n <;> simp

theorem State.memRead_eq_none_iff (s : State) (a : Word) (n : Nat) (k : AccessKind) :
    s.memRead a n k = none ↔ s.memFault a n k = true := by
  unfold State.memRead
  split
  · simp_all
  · rename_i h
    obtain ⟨⟨bs, hbs⟩, -⟩ := (s.memFault_eq_false_iff a n k).1 (by simpa using h)
    simp_all

/-- A read gives the little-endian value of the bytes (R33). -/
theorem State.memRead_eq_some_iff (s : State) (a : Word) (n : Nat) (k : AccessKind) (v : Word) :
    s.memRead a n k = some v ↔
      s.memFault a n k = false ∧ ∃ bs, Memory.bytesAt s.mem a n = some bs ∧ leWord bs = v := by
  unfold State.memRead
  split <;> simp_all

theorem State.memWrite_eq_none_iff (s : State) (a : Word) (n : Nat) (v : Word) :
    s.memWrite a n v = none ↔ s.memFault a n .store = true := by
  unfold State.memWrite; split <;> simp_all

/-- A write changes the memory only, by the value's low n bytes (R34). -/
theorem State.memWrite_eq_some_iff (s : State) (a : Word) (n : Nat) (v : Word) (t : State) :
    s.memWrite a n v = some t ↔
      s.memFault a n .store = false ∧ { s with mem := Memory.writeBytes s.mem a (leBytes n v) } = t := by
  unfold State.memWrite; split <;> simp_all

/-- The bytes of an access, as the byte reads of the state. -/
theorem State.bytesAt_of_byteAt {s : State} {a : Word} {bs : List Byte}
    (h : ∀ k : Nat, k < bs.length → s.byteAt (a + BitVec.ofNat 32 k) = bs[k]?) :
    Memory.bytesAt s.mem a bs.length = some bs :=
  (Memory.bytesAt_eq_some_iff _ _ _ _).2 ⟨rfl, h⟩

/-- The value of a read whose bytes are known. -/
theorem State.memRead_of_byteAt {s : State} {a : Word} {k : AccessKind} {bs : List Byte}
    (hf : s.memFault a bs.length k = false)
    (h : ∀ k : Nat, k < bs.length → s.byteAt (a + BitVec.ofNat 32 k) = bs[k]?) :
    s.memRead a bs.length k = some (leWord bs) :=
  (s.memRead_eq_some_iff _ _ _ _).2 ⟨hf, bs, State.bytesAt_of_byteAt h, rfl⟩

/-- Little-endian assembly of two bytes (R33). -/
theorem leWord_two (b0 b1 : Byte) : leWord [b0, b1] = (b1 ++ b0).setWidth 32 := by
  apply BitVec.eq_of_getLsbD_eq
  intro i hi
  simp only [leWord, BitVec.getLsbD_append, BitVec.getLsbD_or, BitVec.getLsbD_setWidth, BitVec.getLsbD_shiftLeft]
  interval_cases i <;> simp

/-- Little-endian assembly of four bytes (R33). -/
theorem leWord_four (b0 b1 b2 b3 : Byte) : leWord [b0, b1, b2, b3] = (b3 ++ b2 ++ b1 ++ b0 : BitVec 32) := by
  apply BitVec.eq_of_getLsbD_eq
  intro i hi
  simp only [leWord, BitVec.getLsbD_append, BitVec.getLsbD_or, BitVec.getLsbD_setWidth, BitVec.getLsbD_shiftLeft]
  interval_cases i <;> simp

/-! ## The environment's fault predicate -/

/-- A clause for one access refuses exactly that access. -/
theorem FaultRule.applies_single (k' : AccessKind) (n' : Nat) (a' a : Word) (n : Nat) (k : AccessKind) :
    (FaultRule.mk k' n' a' a' false).applies a n k = true ↔ k' = k ∧ n' = n ∧ a' = a := by
  simp only [FaultRule.applies, Bool.not_false, Bool.true_or, Bool.and_true, Bool.and_eq_true, decide_eq_true_eq]
  exact ⟨fun h => ⟨h.1.1.1, h.1.1.2, BitVec.le_antisymm h.1.2 h.2⟩, fun h => by
    obtain ⟨rfl, rfl, rfl⟩ := h; exact ⟨⟨⟨rfl, rfl⟩, BitVec.le_refl _⟩, BitVec.le_refl _⟩⟩

/-- Every predicate `MemFault(addr, n, kind)` on the core's access widths is a list of clauses (log entry 3): holding
clauses as plain data leaves out no environment. -/
theorem FaultRule.represent (p : Word → Nat → AccessKind → Bool) :
    ∃ rules : List FaultRule, ∀ a n k, n ∈ [1, 2, 4] → rules.any (fun f => f.applies a n k) = p a n k := by
  obtain ⟨words, hw⟩ : ∃ l : List Word, ∀ a, a ∈ l := ⟨(List.finRange (2 ^ 32)).map BitVec.ofFin, fun a =>
    List.mem_map.2 ⟨a.toFin, List.mem_finRange _, rfl⟩⟩
  refine ⟨[AccessKind.fetch, .load, .store].flatMap fun k => [1, 2, 4].flatMap fun n =>
    (words.filter fun a => p a n k).map fun a => ⟨k, n, a, a, false⟩, fun a n k hn => ?_⟩
  rw [Bool.eq_iff_iff, List.any_eq_true]
  constructor
  · rintro ⟨f, hf, ha⟩
    obtain ⟨k', -, hf⟩ := List.mem_flatMap.1 hf
    obtain ⟨n', -, hf⟩ := List.mem_flatMap.1 hf
    obtain ⟨a', hw', rfl⟩ := List.mem_map.1 hf
    obtain ⟨rfl, rfl, rfl⟩ := (FaultRule.applies_single _ _ _ _ _ _).1 ha
    exact (List.mem_filter.1 hw').2
  · intro hp
    exact ⟨⟨k, n, a, a, false⟩, List.mem_flatMap.2 ⟨k, by cases k <;> decide, List.mem_flatMap.2 ⟨n, hn,
      List.mem_map.2 ⟨a, List.mem_filter.2 ⟨hw a, hp⟩, rfl⟩⟩⟩, (FaultRule.applies_single _ _ _ _ _ _).2 ⟨rfl, rfl, rfl⟩⟩

/-! ## Frames of the commits and halts -/

theorem SameArguments.refl (s : State) : SameArguments s s := ⟨rfl, rfl, rfl, rfl⟩

theorem State.commit_writesOnly (s : State) (rd : RegIdx) (v p : Word) : WritesOnly s (s.commit rd v p) rd v p :=
  ⟨⟨rfl, rfl, rfl, ⟨rfl, rfl, rfl, rfl⟩⟩, fun r => by simp [State.readReg_writeReg], fun _ => rfl, rfl, rfl⟩

theorem State.retire_movesPcOnly (s : State) (p : Word) : MovesPcOnly s (s.retire p) p :=
  ⟨⟨rfl, rfl, rfl, ⟨rfl, rfl, rfl, rfl⟩⟩, fun _ => rfl, fun _ => rfl, rfl, rfl⟩

theorem State.halt_haltsOnly (s : State) (r : HaltReason) : HaltsOnly s (s.halt r) r :=
  ⟨rfl, rfl, rfl, fun _ => rfl, fun _ => rfl, rfl, rfl, ⟨rfl, rfl, rfl, rfl⟩⟩

/-- A store that succeeds, committed. -/
theorem State.memWrite_storesOnly {s u : State} {a : Word} {n : Nat} {v : Word} (hn : n ≤ 4)
    (h : s.memWrite a n v = some u) (p : Word) : StoresOnly s (u.retire p) a (leBytes n v) p := by
  obtain ⟨-, rfl⟩ := (s.memWrite_eq_some_iff a n v u).1 h
  refine ⟨⟨rfl, rfl, rfl, ⟨rfl, rfl, rfl, rfl⟩⟩, fun _ => rfl, fun k hk => ?_, fun c hc => ?_, rfl, rfl⟩
  · exact Memory.readByte_writeBytes_at _ _ _ (by simp; omega) k hk
  · exact Memory.readByte_writeBytes_other _ _ _ _ hc

/-! ## Host streams -/

/-- What getchar can do (R192, U13). -/
theorem State.hostGetChar_cases (s : State) :
    (∃ v rest, s.hostIn = v :: rest ∧ s.hostGetChar = some (v.delivered, { s with hostIn := rest })) ∨
    (s.hostIn = [] ∧ s.hostInEnded = true ∧ s.hostGetChar = some (s.getcharEof, s)) ∨
    (s.hostIn = [] ∧ s.hostInEnded = false ∧ s.hostGetChar = none) := by
  unfold State.hostGetChar
  cases s.hostIn <;> cases s.hostInEnded <;> simp

/-- A getchar that delivers changes the input stream only, by at most its first value. -/
theorem State.hostGetChar_some {s u : State} {v : Word} (h : s.hostGetChar = some (v, u)) :
    ∃ rest, { s with hostIn := rest } = u ∧ (s.hostIn = rest ∨ ∃ w, s.hostIn = w :: rest) := by
  obtain ⟨w, rest, hin, hg⟩ | ⟨hin, -, hg⟩ | ⟨-, -, hg⟩ := s.hostGetChar_cases <;> rw [hg] at h <;> cases h
  · exact ⟨rest, rfl, .inr ⟨w, hin⟩⟩
  · exact ⟨_, rfl, .inl rfl⟩

/-! ## The sequencer's tests -/

theorem State.budgetReached_eq_true_iff (s : State) :
    s.budgetReached = true ↔ ∃ n, s.budget = some n ∧ n ≤ s.instret := by
  unfold State.budgetReached; split <;> simp_all

/-- pc[1:0] = 00 is being a multiple of 4. -/
theorem pcAligned_eq_true_iff (pc : Word) : pcAligned pc = true ↔ pc.toNat % 4 = 0 := by
  simp only [pcAligned, decide_eq_true_eq, extract, ← BitVec.toNat_inj, BitVec.extractLsb'_toNat, Nat.shiftRight_zero]
  rfl

theorem pcAligned_eq_false_iff (pc : Word) : pcAligned pc = false ↔ pc.toNat % 4 ≠ 0 := by
  rw [← Bool.not_eq_true, pcAligned_eq_true_iff]

end Sys2Proof.Machine
end

