-- ==== Sys2Proof/Laws/Exec.lean ====
section
/-! SUPPORT. What an instruction and a step can do, said once; invariants are derived from these two lists of cases. -/

namespace Sys2Proof.Machine

variable {i : Instr} {s t : State}

/-- The cases of a load. -/
theorem loadWith_cases {n : Nat} {ext : Word → Word} {rd rs1 : RegIdx} {imm : Word}
    (h : loadWith n ext rd rs1 imm s = .next t) :
    (s.memFault (effectiveAddress (s.readReg rs1) imm) n .load = true ∧ t = s.halt .memoryFault) ∨
      ∃ v, s.memRead (effectiveAddress (s.readReg rs1) imm) n .load = some v ∧
        t = s.commit rd (ext v) (candidatePc s.pc) := by
  unfold loadWith at h
  split at h <;> cases h
  · rename_i hr; exact .inl ⟨(s.memRead_eq_none_iff _ _ _).1 hr, rfl⟩
  · rename_i v hr; exact .inr ⟨v, hr, rfl⟩

/-- The cases of a store. -/
theorem storeWith_cases {n : Nat} {rs1 rs2 : RegIdx} {imm : Word} (h : storeWith n rs1 rs2 imm s = .next t) :
    (s.memFault (effectiveAddress (s.readReg rs1) imm) n .store = true ∧ t = s.halt .memoryFault) ∨
      ∃ u, s.memWrite (effectiveAddress (s.readReg rs1) imm) n (s.readReg rs2) = some u ∧
        t = u.retire (candidatePc s.pc) := by
  unfold storeWith at h
  split at h <;> cases h
  · rename_i hr; exact .inl ⟨(s.memWrite_eq_none_iff _ _ _).1 hr, rfl⟩
  · rename_i u hr; exact .inr ⟨u, hr, rfl⟩

/-- The cases of ECALL (R191). -/
theorem execEcall_cases (h : execEcall s = .next t) :
    (s.readReg 17 = 1#32 ∧ ∃ v u, s.hostGetChar = some (v, u) ∧ t = u.commit 10 v (candidatePc s.pc)) ∨
    (s.readReg 17 = 2#32 ∧ t = (s.hostPutChar (extract (s.readReg 10) 0 8)).retire (candidatePc s.pc)) ∨
    ((s.readReg 17 = 3#32 ∨ s.readReg 17 = 93#32) ∧ t = s.haltExit) ∨
    ((s.readReg 17 ≠ 1#32 ∧ s.readReg 17 ≠ 2#32 ∧ s.readReg 17 ≠ 3#32 ∧ s.readReg 17 ≠ 93#32) ∧
      t = s.halt .unsupportedSyscall) := by
  unfold execEcall at h
  dsimp only at h
  split at h
  · unfold ecallGetChar at h
    split at h <;> cases h
    rename_i h1 _ v u hg
    exact .inl ⟨h1, v, u, hg, rfl⟩
  · split at h
    · cases h; rename_i h2; exact .inr (.inl ⟨h2, rfl⟩)
    · split at h <;> cases h
      · rename_i h3; exact .inr (.inr (.inl ⟨h3, rfl⟩))
      · rename_i h1 h2 h3
        exact .inr (.inr (.inr ⟨⟨h1, h2, fun e => h3 (.inl e), fun e => h3 (.inr e)⟩, rfl⟩))

/-- What an instruction can do: a register write, a move of the pc, a store, a failing data access, or one of ECALL's
services. -/
theorem exec_cases (h : exec i s = .next t) :
    (∃ rd v p, t = s.commit rd v p) ∨
    (∃ p, t = s.retire p) ∨
    (∃ a n v u, n ≤ 4 ∧ dataAccess i s = some (a, n, .store) ∧ s.memWrite a n v = some u ∧
      t = u.retire (candidatePc s.pc)) ∨
    (∃ a n k, dataAccess i s = some (a, n, k) ∧ s.memFault a n k = true ∧ t = s.halt .memoryFault) ∨
    (i = .ecall ∧ execEcall s = .next t) := by
  cases i
  case ecall => exact .inr (.inr (.inr (.inr ⟨rfl, h⟩)))
  case lb | lh | lw | lbu | lhu =>
    obtain ⟨hf, ht⟩ | ⟨v, -, ht⟩ := loadWith_cases h
    · exact .inr (.inr (.inr (.inl ⟨_, _, _, rfl, hf, ht⟩)))
    · exact .inl ⟨_, _, _, ht⟩
  case sb | sh | sw =>
    obtain ⟨hf, ht⟩ | ⟨u, hw, ht⟩ := storeWith_cases h
    · exact .inr (.inr (.inr (.inl ⟨_, _, _, rfl, hf, ht⟩)))
    · exact .inr (.inr (.inl ⟨_, _, _, u, by decide, rfl, hw, ht⟩))
  case beq | bne | blt | bge | bltu | bgeu => cases h; exact .inr (.inl ⟨_, rfl⟩)
  all_goals cases h; exact .inl ⟨_, _, _, rfl⟩

/-- What a step can do (R210 to R214): it is taken from Running only, and is one of the four halts before execution or
the decoded instruction. -/
theorem step_cases (h : step s = .next t) :
    s.run = .running ∧
    ((s.budgetReached = true ∧ t = s.halt .budgetExceeded) ∨
     (s.budgetReached = false ∧ s.pc.toNat % 4 ≠ 0 ∧ t = s.halt (.pcMisaligned s.pc)) ∨
     (s.budgetReached = false ∧ s.pc.toNat % 4 = 0 ∧ s.memFault s.pc 4 .fetch = true ∧ t = s.halt .memoryFault) ∨
     (s.budgetReached = false ∧ s.pc.toNat % 4 = 0 ∧ ∃ w e, s.fetch = some w ∧ decodeInstr w = .error e ∧
        t = s.halt (.unknownInstruction s.pc w)) ∨
     (s.budgetReached = false ∧ s.pc.toNat % 4 = 0 ∧ ∃ w i, s.fetch = some w ∧ decodeInstr w = .ok i ∧
        exec i s = .next t)) := by
  unfold step at h
  split at h
  case h_2 => cases h
  case h_1 hr =>
    refine ⟨hr, ?_⟩
    unfold sequenceStep at h
    split at h
    case isTrue hb => cases h; exact .inl ⟨hb, rfl⟩
    case isFalse hb =>
      have hb : s.budgetReached = false := by simpa using hb
      split at h
      case isTrue hp => cases h; exact .inr (.inl ⟨hb, (pcAligned_eq_false_iff _).1 hp, rfl⟩)
      case isFalse hp =>
        have hp : s.pc.toNat % 4 = 0 := (pcAligned_eq_true_iff _).1 (by simpa using hp)
        split at h
        case h_1 hf => cases h; exact .inr (.inr (.inl ⟨hb, hp, (s.memRead_eq_none_iff _ _ _).1 hf, rfl⟩))
        case h_2 w hf =>
          unfold runWord at h
          split at h
          case h_1 i hd => exact .inr (.inr (.inr (.inr ⟨hb, hp, w, i, hf, hd, h⟩)))
          case h_2 e hd => cases h; exact .inr (.inr (.inr (.inl ⟨hb, hp, w, e, hf, hd, rfl⟩)))

end Sys2Proof.Machine
end

