-- ==== Sys2Proof/Laws/PerInstr.lean ====
section
/-! SUPPORT. Statements about all instructions, one lemma per constructor. -/

namespace Sys2Proof.Laws.EncodedOperation

/-- The family: the word the encoder gives a well-formed instruction resolves to that instruction's operation. -/
def Statement (i : Instr) : Prop := i.wellFormed = true → mnemonic (decode (encode i)) = i.operation

theorem add (rd rs1 rs2 : RegIdx) : Statement (.add rd rs1 rs2) := by
  intro _; rw [encode, decode_layoutR rfl]; rfl
theorem sub (rd rs1 rs2 : RegIdx) : Statement (.sub rd rs1 rs2) := by
  intro _; rw [encode, decode_layoutR rfl]; rfl
theorem sll (rd rs1 rs2 : RegIdx) : Statement (.sll rd rs1 rs2) := by
  intro _; rw [encode, decode_layoutR rfl]; rfl
theorem slt (rd rs1 rs2 : RegIdx) : Statement (.slt rd rs1 rs2) := by
  intro _; rw [encode, decode_layoutR rfl]; rfl
theorem sltu (rd rs1 rs2 : RegIdx) : Statement (.sltu rd rs1 rs2) := by
  intro _; rw [encode, decode_layoutR rfl]; rfl
theorem xor (rd rs1 rs2 : RegIdx) : Statement (.xor rd rs1 rs2) := by
  intro _; rw [encode, decode_layoutR rfl]; rfl
theorem srl (rd rs1 rs2 : RegIdx) : Statement (.srl rd rs1 rs2) := by
  intro _; rw [encode, decode_layoutR rfl]; rfl
theorem sra (rd rs1 rs2 : RegIdx) : Statement (.sra rd rs1 rs2) := by
  intro _; rw [encode, decode_layoutR rfl]; rfl
theorem or (rd rs1 rs2 : RegIdx) : Statement (.or rd rs1 rs2) := by
  intro _; rw [encode, decode_layoutR rfl]; rfl
theorem and (rd rs1 rs2 : RegIdx) : Statement (.and rd rs1 rs2) := by
  intro _; rw [encode, decode_layoutR rfl]; rfl
theorem addi (rd rs1 : RegIdx) (imm : Word) : Statement (.addi rd rs1 imm) := by
  intro h; rw [encode, decode_layoutI rfl h]; rfl
theorem slti (rd rs1 : RegIdx) (imm : Word) : Statement (.slti rd rs1 imm) := by
  intro h; rw [encode, decode_layoutI rfl h]; rfl
theorem sltiu (rd rs1 : RegIdx) (imm : Word) : Statement (.sltiu rd rs1 imm) := by
  intro h; rw [encode, decode_layoutI rfl h]; rfl
theorem xori (rd rs1 : RegIdx) (imm : Word) : Statement (.xori rd rs1 imm) := by
  intro h; rw [encode, decode_layoutI rfl h]; rfl
theorem ori (rd rs1 : RegIdx) (imm : Word) : Statement (.ori rd rs1 imm) := by
  intro h; rw [encode, decode_layoutI rfl h]; rfl
theorem andi (rd rs1 : RegIdx) (imm : Word) : Statement (.andi rd rs1 imm) := by
  intro h; rw [encode, decode_layoutI rfl h]; rfl
theorem slli (rd rs1 : RegIdx) (shamt : BitVec 5) : Statement (.slli rd rs1 shamt) := by
  intro _; rw [encode, decode_layoutR_shift rfl]; rfl
theorem srli (rd rs1 : RegIdx) (shamt : BitVec 5) : Statement (.srli rd rs1 shamt) := by
  intro _; rw [encode, decode_layoutR_shift rfl]; rfl
theorem srai (rd rs1 : RegIdx) (shamt : BitVec 5) : Statement (.srai rd rs1 shamt) := by
  intro _; rw [encode, decode_layoutR_shift rfl]; rfl
theorem lb (rd rs1 : RegIdx) (imm : Word) : Statement (.lb rd rs1 imm) := by
  intro h; rw [encode, decode_layoutI rfl h]; rfl
theorem lh (rd rs1 : RegIdx) (imm : Word) : Statement (.lh rd rs1 imm) := by
  intro h; rw [encode, decode_layoutI rfl h]; rfl
theorem lw (rd rs1 : RegIdx) (imm : Word) : Statement (.lw rd rs1 imm) := by
  intro h; rw [encode, decode_layoutI rfl h]; rfl
theorem lbu (rd rs1 : RegIdx) (imm : Word) : Statement (.lbu rd rs1 imm) := by
  intro h; rw [encode, decode_layoutI rfl h]; rfl
theorem lhu (rd rs1 : RegIdx) (imm : Word) : Statement (.lhu rd rs1 imm) := by
  intro h; rw [encode, decode_layoutI rfl h]; rfl
theorem sb (rs1 rs2 : RegIdx) (imm : Word) : Statement (.sb rs1 rs2 imm) := by
  intro h; rw [encode, decode_layoutS rfl h]; rfl
theorem sh (rs1 rs2 : RegIdx) (imm : Word) : Statement (.sh rs1 rs2 imm) := by
  intro h; rw [encode, decode_layoutS rfl h]; rfl
theorem sw (rs1 rs2 : RegIdx) (imm : Word) : Statement (.sw rs1 rs2 imm) := by
  intro h; rw [encode, decode_layoutS rfl h]; rfl
theorem beq (rs1 rs2 : RegIdx) (imm : Word) : Statement (.beq rs1 rs2 imm) := by
  intro h; rw [encode, decode_layoutB rfl h]; rfl
theorem bne (rs1 rs2 : RegIdx) (imm : Word) : Statement (.bne rs1 rs2 imm) := by
  intro h; rw [encode, decode_layoutB rfl h]; rfl
theorem blt (rs1 rs2 : RegIdx) (imm : Word) : Statement (.blt rs1 rs2 imm) := by
  intro h; rw [encode, decode_layoutB rfl h]; rfl
theorem bge (rs1 rs2 : RegIdx) (imm : Word) : Statement (.bge rs1 rs2 imm) := by
  intro h; rw [encode, decode_layoutB rfl h]; rfl
theorem bltu (rs1 rs2 : RegIdx) (imm : Word) : Statement (.bltu rs1 rs2 imm) := by
  intro h; rw [encode, decode_layoutB rfl h]; rfl
theorem bgeu (rs1 rs2 : RegIdx) (imm : Word) : Statement (.bgeu rs1 rs2 imm) := by
  intro h; rw [encode, decode_layoutB rfl h]; rfl
theorem jal (rd : RegIdx) (imm : Word) : Statement (.jal rd imm) := by
  intro h; rw [encode, decode_layoutJ rfl h]; rfl
theorem jalr (rd rs1 : RegIdx) (imm : Word) : Statement (.jalr rd rs1 imm) := by
  intro h; rw [encode, decode_layoutI rfl h]; rfl
theorem lui (rd : RegIdx) (imm : Word) : Statement (.lui rd imm) := by
  intro h; rw [encode, decode_layoutU rfl h]; rfl
theorem auipc (rd : RegIdx) (imm : Word) : Statement (.auipc rd imm) := by
  intro h; rw [encode, decode_layoutU rfl h]; rfl
theorem ecall : Statement (.ecall) := by
  intro _; decide

end Sys2Proof.Laws.EncodedOperation
end

