-- ==== Sys2Proof/Tests/Slice0.lean ====
section
/-! SUPPORT. Tests: ill-formed instructions are refused, words decode to their instructions, single steps give the values
of spec/95_test_vectors.md (V1 to V10), and a witness for every obligation that has hypotheses. -/

open Sys2Proof Sys2Proof.Machine Sys2Proof.Claims

namespace Sys2Proof.Tests

/-- A value read from the next state. -/
def result {α : Type} (f : State → α) : Host.Outcome State Fault Refusal → Option α
  | .next t => some (f t)
  | .fault _ => none
  | .refused _ => none

theorem next_of_result {α : Type} {f : State → α} {o : Host.Outcome State Fault Refusal} {a : α}
    (h : result f o = some a) : ∃ t, o = .next t ∧ f t = a := by
  cases o with
  | next t => exact ⟨t, rfl, Option.some.inj h⟩
  | fault _ => cases h
  | refused _ => cases h

/-- Reset with a pc, registers, data bytes and the word at pc. -/
def prepared (pc word : Word) (regs : List (RegIdx × Word)) (data : Memory) : State :=
  regs.foldl (fun s p => s.writeReg p.1 p.2)
    { State.reset with pc := pc, mem := Memory.writeBytes data pc (leBytes 4 word) }

/-- A value read after one step of the prepared state. -/
def after {α : Type} (pc word : Word) (regs : List (RegIdx × Word)) (data : Memory) (f : State → α) : Option α :=
  result f (step (prepared pc word regs data))

/-- Eight data bytes from 0x2000 on (V4). -/
def dataV4 : Memory :=
  [(0x2000, 0x80#8), (0x2001, 0x7F#8), (0x2002, 0x00#8), (0x2003, 0x80#8),
   (0x2004, 0x78#8), (0x2005, 0x56#8), (0x2006, 0x34#8), (0x2007, 0x12#8)]

/-- Eight bytes AA from 0x2000 on (V5). -/
def dataV5 : Memory := (List.range 8).map (fun k => (0x2000 + k, 0xAA#8))

/-- The eight data bytes. -/
def dataOf (s : State) : List (Option Byte) := (List.range 8).map (fun k => s.byteAt (0x2000#32 + BitVec.ofNat 32 k))

/-! ## Ill-formed instructions -/

theorem test_wellFormed_refuses_twelve_bits :
    (Instr.addi 1 2 2048#32).wellFormed = false ∧ (Instr.addi 1 2 0xFFFFF7FF#32).wellFormed = false ∧
    (Instr.slti 1 2 2048#32).wellFormed = false ∧ (Instr.sltiu 1 2 0x0000FFFF#32).wellFormed = false ∧
    (Instr.xori 1 2 2048#32).wellFormed = false ∧ (Instr.ori 1 2 4095#32).wellFormed = false ∧
    (Instr.andi 1 2 2048#32).wellFormed = false ∧ (Instr.lb 1 2 2048#32).wellFormed = false ∧
    (Instr.lh 1 2 2048#32).wellFormed = false ∧ (Instr.lw 1 2 0xFFFFF7FF#32).wellFormed = false ∧
    (Instr.lbu 1 2 2048#32).wellFormed = false ∧ (Instr.lhu 1 2 2048#32).wellFormed = false ∧
    (Instr.sb 1 2 2048#32).wellFormed = false ∧ (Instr.sh 1 2 2048#32).wellFormed = false ∧
    (Instr.sw 1 2 0xFFFFF7FF#32).wellFormed = false ∧ (Instr.jalr 1 2 2048#32).wellFormed = false := by decide

theorem test_wellFormed_refuses_branch_offsets :
    (Instr.beq 1 2 4096#32).wellFormed = false ∧ (Instr.beq 1 2 7#32).wellFormed = false ∧
    (Instr.bne 1 2 0xFFFFEFFE#32).wellFormed = false ∧ (Instr.bne 1 2 1#32).wellFormed = false ∧
    (Instr.blt 1 2 4096#32).wellFormed = false ∧ (Instr.bge 1 2 4095#32).wellFormed = false ∧
    (Instr.bltu 1 2 4096#32).wellFormed = false ∧ (Instr.bgeu 1 2 0xFFFFFFFF#32).wellFormed = false := by decide

theorem test_wellFormed_refuses_upper_and_jump :
    (Instr.lui 1 0x12345001#32).wellFormed = false ∧ (Instr.auipc 1 0x00000800#32).wellFormed = false ∧
    (Instr.jal 1 1048576#32).wellFormed = false ∧ (Instr.jal 1 0xFFEFFFFE#32).wellFormed = false ∧
    (Instr.jal 1 3#32).wellFormed = false := by decide

theorem test_wellFormed_admits_the_ends_of_the_ranges :
    (Instr.addi 1 2 2047#32).wellFormed = true ∧ (Instr.sw 1 2 0xFFFFF800#32).wellFormed = true ∧
    (Instr.beq 1 2 4094#32).wellFormed = true ∧ (Instr.beq 1 2 0xFFFFF000#32).wellFormed = true ∧
    (Instr.jal 1 1048574#32).wellFormed = true ∧ (Instr.jal 1 0xFFF00000#32).wellFormed = true ∧
    (Instr.lui 1 0xFFFFF000#32).wellFormed = true := by decide

/-! ## Words, written out from the encodings of spec/30_encoding.md and V1 to V8 -/

/-- ADD x3, x1, x2: funct7 0000000, rs2 00010, rs1 00001, funct3 000, rd 00011, opcode 0110011. -/
theorem test_decode_add_bits :
    decodeInstr 0b00000000001000001000000110110011#32 = .ok (.add 3 1 2) := by decide

/-- SRAI x3, x1, 4: 0100000, shamt 00100, rs1 00001, funct3 101, rd 00011, opcode 0010011. -/
theorem test_decode_srai_bits :
    decodeInstr 0b01000000010000001101000110010011#32 = .ok (.srai 3 1 4#5) := by decide

/-- LW x5, -4(x2): imm 111111111100, rs1 00010, funct3 010, rd 00101, opcode 0000011. -/
theorem test_decode_lw_bits :
    decodeInstr 0b11111111110000010010001010000011#32 = .ok (.lw 5 2 0xFFFFFFFC#32) := by decide

/-- SW x5, 12(x2): imm[11:5] 0000000, rs2 00101, rs1 00010, funct3 010, imm[4:0] 01100, opcode 0100011. -/
theorem test_decode_sw_bits :
    decodeInstr 0b00000000010100010010011000100011#32 = .ok (.sw 2 5 12#32) := by decide

/-- BEQ x1, x2, 8: imm[12] 0, imm[10:5] 000000, rs2 00010, rs1 00001, funct3 000, imm[4:1] 0100, imm[11] 0. -/
theorem test_decode_beq_bits :
    decodeInstr 0b00000000001000001000010001100011#32 = .ok (.beq 1 2 8#32) := by decide

/-- JAL x1, 2048: imm[20] 0, imm[10:1] 0000000000, imm[11] 1, imm[19:12] 00000000, rd 00001, opcode 1101111. -/
theorem test_decode_jal_bits :
    decodeInstr 0b00000000000100000000000011101111#32 = .ok (.jal 1 2048#32) := by decide

/-- LUI x5, 0x12345: imm[31:12] 0001 0010 0011 0100 0101, rd 00101, opcode 0110111. -/
theorem test_decode_lui_bits :
    decodeInstr 0b00010010001101000101001010110111#32 = .ok (.lui 5 0x12345000#32) := by decide

/-- ECALL: 25 zero bits, opcode 1110011. -/
theorem test_decode_ecall_bits :
    decodeInstr 0b00000000000000000000000001110011#32 = .ok .ecall := by decide

theorem test_decode_register :
    decodeInstr 0x002081B3#32 = .ok (.add 3 1 2) ∧
    decodeInstr 0x402081B3#32 = .ok (.sub 3 1 2) ∧
    decodeInstr 0x002091B3#32 = .ok (.sll 3 1 2) ∧
    decodeInstr 0x0020A1B3#32 = .ok (.slt 3 1 2) ∧
    decodeInstr 0x0020B1B3#32 = .ok (.sltu 3 1 2) ∧
    decodeInstr 0x0020C1B3#32 = .ok (.xor 3 1 2) ∧
    decodeInstr 0x0020D1B3#32 = .ok (.srl 3 1 2) ∧
    decodeInstr 0x4020D1B3#32 = .ok (.sra 3 1 2) ∧
    decodeInstr 0x0020E1B3#32 = .ok (.or 3 1 2) ∧
    decodeInstr 0x0020F1B3#32 = .ok (.and 3 1 2) ∧
    decodeInstr 0x41FFDFB3#32 = .ok (.sra 31 31 31) := by decide

theorem test_decode_immediate :
    decodeInstr 0xFFF00293#32 = .ok (.addi 5 0 0xFFFFFFFF#32) ∧
    decodeInstr 0x7FF00093#32 = .ok (.addi 1 0 2047#32) ∧
    decodeInstr 0x80000093#32 = .ok (.addi 1 0 0xFFFFF800#32) ∧
    decodeInstr 0xFFF0A193#32 = .ok (.slti 3 1 0xFFFFFFFF#32) ∧
    decodeInstr 0x8000B193#32 = .ok (.sltiu 3 1 0xFFFFF800#32) ∧
    decodeInstr 0xFFF0C193#32 = .ok (.xori 3 1 0xFFFFFFFF#32) ∧
    decodeInstr 0x0F00E193#32 = .ok (.ori 3 1 0x0F0#32) ∧
    decodeInstr 0x7FF0F193#32 = .ok (.andi 3 1 0x7FF#32) ∧
    decodeInstr 0x01F09193#32 = .ok (.slli 3 1 31#5) ∧
    decodeInstr 0x0040D193#32 = .ok (.srli 3 1 4#5) ∧
    decodeInstr 0x41F0D193#32 = .ok (.srai 3 1 31#5) := by decide

theorem test_decode_load_store :
    decodeInstr 0x00010283#32 = .ok (.lb 5 2 0#32) ∧
    decodeInstr 0x00211283#32 = .ok (.lh 5 2 2#32) ∧
    decodeInstr 0x00412103#32 = .ok (.lw 2 2 4#32) ∧
    decodeInstr 0x00014283#32 = .ok (.lbu 5 2 0#32) ∧
    decodeInstr 0x00215283#32 = .ok (.lhu 5 2 2#32) ∧
    decodeInstr 0xFFFF8FA3#32 = .ok (.sb 31 31 0xFFFFFFFF#32) ∧
    decodeInstr 0x54111AA3#32 = .ok (.sh 2 1 1365#32) ∧
    decodeInstr 0x7E512FA3#32 = .ok (.sw 2 5 2047#32) ∧
    decodeInstr 0x80512023#32 = .ok (.sw 2 5 0xFFFFF800#32) := by decide

theorem test_decode_branch :
    decodeInstr 0xFE000EE3#32 = .ok (.beq 0 0 0xFFFFFFFC#32) ∧
    decodeInstr 0xFE0000E3#32 = .ok (.beq 0 0 0xFFFFFFE0#32) ∧
    decodeInstr 0x004190E3#32 = .ok (.bne 3 4 2048#32) ∧
    decodeInstr 0x0041C163#32 = .ok (.blt 3 4 2#32) ∧
    decodeInstr 0x5462DA63#32 = .ok (.bge 5 6 1364#32) ∧
    decodeInstr 0x7E20EFE3#32 = .ok (.bltu 1 2 4094#32) ∧
    decodeInstr 0x8020F063#32 = .ok (.bgeu 1 2 0xFFFFF000#32) := by decide

theorem test_decode_jump_upper_system :
    decodeInstr 0xFFDFF06F#32 = .ok (.jal 0 0xFFFFFFFC#32) ∧
    decodeInstr 0x800000EF#32 = .ok (.jal 1 0xFFF00000#32) ∧
    decodeInstr 0x7FFFF0EF#32 = .ok (.jal 1 0xFFFFE#32) ∧
    decodeInstr 0x554552EF#32 = .ok (.jal 5 0x55554#32) ∧
    decodeInstr 0x000012EF#32 = .ok (.jal 5 4096#32) ∧
    decodeInstr 0x002002EF#32 = .ok (.jal 5 2#32) ∧
    decodeInstr 0x800280E7#32 = .ok (.jalr 1 5 0xFFFFF800#32) ∧
    decodeInstr 0xFFFFFFB7#32 = .ok (.lui 31 0xFFFFF000#32) ∧
    decodeInstr 0x00000037#32 = .ok (.lui 0 0#32) ∧
    decodeInstr 0x80000097#32 = .ok (.auipc 1 0x80000000#32) ∧
    decodeInstr 0x00000073#32 = .ok .ecall := by decide

/-- Unknown words of V1. -/
theorem test_decode_unknown_a :
    mnemonic (decode 0x00100073#32) = .unknown ∧
    mnemonic (decode 0x02208033#32) = .unknown ∧
    mnemonic (decode 0xFFFFFFFF#32) = .unknown ∧
    mnemonic (decode 0x00000000#32) = .unknown ∧
    mnemonic (decode 0x0FF0000F#32) = .unknown ∧
    mnemonic (decode 0x00000001#32) = .unknown := by decide

/-- Unknown words of V1. -/
theorem test_decode_unknown_b :
    mnemonic (decode 0x00002007#32) = .unknown ∧
    mnemonic (decode 0x00013283#32) = .unknown ∧
    mnemonic (decode 0x00513623#32) = .unknown ∧
    mnemonic (decode 0x0020A463#32) = .unknown ∧
    mnemonic (decode 0x000290E7#32) = .unknown ∧
    mnemonic (decode 0x02009193#32) = .unknown := by decide

/-- Unknown words of V1. -/
theorem test_decode_unknown_c :
    mnemonic (decode 0x40009193#32) = .unknown ∧
    mnemonic (decode 0x4020C1B3#32) = .unknown ∧
    mnemonic (decode 0x00001073#32) = .unknown ∧
    mnemonic (decode 0x30200073#32) = .unknown ∧
    mnemonic (decode 0x10500073#32) = .unknown := by decide

/-- V1: the record of SH x1, 1365(x2), and of all ones. -/
theorem test_decode_records :
    decode 0x54111AA3#32 = ⟨.s, 0x23#7, 1#3, 0#7, 0#5, 2#5, 1#5, 1365#32, 0x54111AA3#32⟩ ∧
    decode 0xFFFFFFFF#32 = ⟨.unknown, 0x7F#7, 0#3, 0#7, 0#5, 0#5, 0#5, 0#32, 0xFFFFFFFF#32⟩ := by decide

theorem test_decodeBytes_reads_little_endian_and_keeps_the_rest :
    decodeBytes [0x93#8, 0x00#8, 0xA0#8, 0x00#8, 0x73#8] = .ok (.addi 1 0 10#32, [0x73#8]) ∧
    decodeBytes [0x93#8, 0x00#8, 0xA0#8] = .error .tooFewBytes := by decide

theorem test_decodeTableWord :
    decodeTableWord 32 0x402081B3 = some (.sub 3 1 2) ∧ decodeTableWord 32 0x00000073 = some .ecall ∧
    decodeTableWord 32 0xFFFFFFFF = none := by decide

/-- The rows of the opcode table exclude each other: two rows differ in a bit that both fix. -/
theorem test_table_rows_do_not_overlap :
    opcodeTable.Pairwise (fun r q => (r.pattern ^^^ q.pattern) &&& (r.mask &&& q.mask) ≠ 0#32) := by decide

/-! ## Single steps -/

/-! ### V2 -/

theorem test_add_wraps :
    after 0x1000#32 0x002081B3#32 [(1, 0x7FFFFFFF#32), (2, 1#32)] [] (fun t => (t.readReg 3, t.pc)) =
      some (0x80000000#32, 0x1004#32) ∧
    after 0x1000#32 0x002081B3#32 [(1, 0xFFFFFFFF#32), (2, 1#32)] [] (fun t => (t.readReg 3, t.pc)) =
      some (0#32, 0x1004#32) := by decide

theorem test_sub_wraps :
    after 0x1000#32 0x402081B3#32 [(1, 0#32), (2, 1#32)] [] (fun t => (t.readReg 3, t.pc)) =
      some (0xFFFFFFFF#32, 0x1004#32) ∧
    after 0x1000#32 0x402081B3#32 [(1, 0x80000000#32), (2, 1#32)] [] (fun t => (t.readReg 3, t.pc)) =
      some (0x7FFFFFFF#32, 0x1004#32) := by decide

theorem test_sll_uses_five_bits :
    after 0x1000#32 0x002091B3#32 [(1, 0x80000001#32), (2, 0x20#32)] [] (fun t => (t.readReg 3, t.pc)) =
      some (0x80000001#32, 0x1004#32) ∧
    after 0x1000#32 0x002091B3#32 [(1, 1#32), (2, 0xFFFFFFFF#32)] [] (fun t => (t.readReg 3, t.pc)) =
      some (0x80000000#32, 0x1004#32) := by decide

theorem test_slt_signed :
    after 0x1000#32 0x0020A1B3#32 [(1, 0x80000000#32), (2, 0x7FFFFFFF#32)] [] (fun t => (t.readReg 3, t.pc)) =
      some (1#32, 0x1004#32) ∧
    after 0x1000#32 0x0020A1B3#32 [(1, 1#32), (2, 0xFFFFFFFF#32)] [] (fun t => (t.readReg 3, t.pc)) =
      some (0#32, 0x1004#32) := by decide

theorem test_sltu_unsigned :
    after 0x1000#32 0x0020B1B3#32 [(1, 0xFFFFFFFF#32), (2, 1#32)] [] (fun t => (t.readReg 3, t.pc)) =
      some (0#32, 0x1004#32) ∧
    after 0x1000#32 0x0020B1B3#32 [(1, 0#32), (2, 1#32)] [] (fun t => (t.readReg 3, t.pc)) =
      some (1#32, 0x1004#32) := by decide

theorem test_xor :
    after 0x1000#32 0x0020C1B3#32 [(1, 0xFF00FF00#32), (2, 0x0FF00FF0#32)] [] (fun t => (t.readReg 3, t.pc)) =
      some (0xF0F0F0F0#32, 0x1004#32) := by decide

theorem test_srl_uses_five_bits :
    after 0x1000#32 0x0020D1B3#32 [(1, 0x80000000#32), (2, 0x3F#32)] [] (fun t => (t.readReg 3, t.pc)) =
      some (1#32, 0x1004#32) ∧
    after 0x1000#32 0x0020D1B3#32 [(1, 0xF000000F#32), (2, 4#32)] [] (fun t => (t.readReg 3, t.pc)) =
      some (0x0F000000#32, 0x1004#32) := by decide

theorem test_sra_copies_the_sign :
    after 0x1000#32 0x4020D1B3#32 [(1, 0x80000000#32), (2, 0x1F#32)] [] (fun t => (t.readReg 3, t.pc)) =
      some (0xFFFFFFFF#32, 0x1004#32) ∧
    after 0x1000#32 0x4020D1B3#32 [(1, 0x80000000#32), (2, 0x20#32)] [] (fun t => (t.readReg 3, t.pc)) =
      some (0x80000000#32, 0x1004#32) := by decide

theorem test_or :
    after 0x1000#32 0x0020E1B3#32 [(1, 0xF0F00000#32), (2, 0x0000F0F0#32)] [] (fun t => (t.readReg 3, t.pc)) =
      some (0xF0F0F0F0#32, 0x1004#32) := by decide

theorem test_and :
    after 0x1000#32 0x0020F1B3#32 [(1, 0xFFFF0000#32), (2, 0x0FF00FF0#32)] [] (fun t => (t.readReg 3, t.pc)) =
      some (0x0FF00000#32, 0x1004#32) := by decide

theorem test_add_source_is_destination_and_x0 :
    after 0x1000#32 0x001080B3#32 [(1, 0x40000000#32)] [] (fun t => t.readReg 1) =
      some 0x80000000#32 ∧
    after 0x1000#32 0x00208033#32 [(1, 5#32), (2, 6#32)] [] (fun t => (t.readReg 0, t.instret)) =
      some (0#32, 1) := by decide

/-! ### V3 -/

theorem test_addi_sign_extends :
    after 0x1000#32 0xFFF08193#32 [(1, 0#32)] [] (fun t => (t.readReg 3, t.pc)) =
      some (0xFFFFFFFF#32, 0x1004#32) ∧
    after 0x1000#32 0x80008193#32 [(1, 0x80000000#32)] [] (fun t => (t.readReg 3, t.pc)) =
      some (0x7FFFF800#32, 0x1004#32) := by decide

theorem test_slti :
    after 0x1000#32 0xFFF0A193#32 [(1, 0xFFFFFFFE#32)] [] (fun t => (t.readReg 3, t.pc)) =
      some (1#32, 0x1004#32) ∧
    after 0x1000#32 0x0000A193#32 [(1, 0x80000000#32)] [] (fun t => (t.readReg 3, t.pc)) =
      some (1#32, 0x1004#32) := by decide

theorem test_sltiu_compares_the_extended_immediate_unsigned :
    after 0x1000#32 0xFFF0B193#32 [(1, 5#32)] [] (fun t => (t.readReg 3, t.pc)) =
      some (1#32, 0x1004#32) ∧
    after 0x1000#32 0x8000B193#32 [(1, 0xFFFFF800#32)] [] (fun t => (t.readReg 3, t.pc)) =
      some (0#32, 0x1004#32) := by decide

theorem test_xori :
    after 0x1000#32 0xFFF0C193#32 [(1, 0x0F0F0F0F#32)] [] (fun t => (t.readReg 3, t.pc)) =
      some (0xF0F0F0F0#32, 0x1004#32) := by decide

theorem test_ori :
    after 0x1000#32 0x8000E193#32 [(1, 0x000000FF#32)] [] (fun t => (t.readReg 3, t.pc)) =
      some (0xFFFFF8FF#32, 0x1004#32) := by decide

theorem test_andi :
    after 0x1000#32 0x7FF0F193#32 [(1, 0xFFFFFFFF#32)] [] (fun t => (t.readReg 3, t.pc)) =
      some (0x7FF#32, 0x1004#32) ∧
    after 0x1000#32 0xFFF0F193#32 [(1, 0x12345678#32)] [] (fun t => (t.readReg 3, t.pc)) =
      some (0x12345678#32, 0x1004#32) := by decide

theorem test_slli :
    after 0x1000#32 0x01F09193#32 [(1, 3#32)] [] (fun t => (t.readReg 3, t.pc)) =
      some (0x80000000#32, 0x1004#32) ∧
    after 0x1000#32 0x00009193#32 [(1, 0xDEADBEEF#32)] [] (fun t => (t.readReg 3, t.pc)) =
      some (0xDEADBEEF#32, 0x1004#32) := by decide

theorem test_srli :
    after 0x1000#32 0x01F0D193#32 [(1, 0x80000000#32)] [] (fun t => (t.readReg 3, t.pc)) =
      some (1#32, 0x1004#32) := by decide

theorem test_srai :
    after 0x1000#32 0x4040D193#32 [(1, 0xF000000F#32)] [] (fun t => (t.readReg 3, t.pc)) =
      some (0xFF000000#32, 0x1004#32) ∧
    after 0x1000#32 0x41F0D193#32 [(1, 0x7FFFFFFF#32)] [] (fun t => (t.readReg 3, t.pc)) =
      some (0#32, 0x1004#32) := by decide

/-! ### V4 -/

theorem test_lb :
    after 0x1000#32 0x00010283#32 [(2, 0x2000#32)] dataV4 (fun t => (t.readReg 5, t.pc)) =
      some (0xFFFFFF80#32, 0x1004#32) ∧
    after 0x1000#32 0x00110283#32 [(2, 0x2000#32)] dataV4 (fun t => (t.readReg 5, t.pc)) =
      some (0x7F#32, 0x1004#32) := by decide

theorem test_lh :
    after 0x1000#32 0x00211283#32 [(2, 0x2000#32)] dataV4 (fun t => (t.readReg 5, t.pc)) =
      some (0xFFFF8000#32, 0x1004#32) ∧
    after 0x1000#32 0x00311283#32 [(2, 0x2000#32)] dataV4 (fun t => (t.readReg 5, t.pc)) =
      some (0x7880#32, 0x1004#32) := by decide

theorem test_lw :
    after 0x1000#32 0x00112283#32 [(2, 0x2000#32)] dataV4 (fun t => (t.readReg 5, t.pc)) =
      some (0x7880007F#32, 0x1004#32) ∧
    after 0x1000#32 0xFFC12283#32 [(2, 0x2008#32)] dataV4 (fun t => (t.readReg 5, t.pc)) =
      some (0x12345678#32, 0x1004#32) := by decide

theorem test_lbu :
    after 0x1000#32 0x00014283#32 [(2, 0x2000#32)] dataV4 (fun t => (t.readReg 5, t.pc)) =
      some (0x80#32, 0x1004#32) := by decide

theorem test_lhu :
    after 0x1000#32 0x00215283#32 [(2, 0x2000#32)] dataV4 (fun t => (t.readReg 5, t.pc)) =
      some (0x8000#32, 0x1004#32) := by decide

theorem test_lw_source_is_destination_and_fault :
    after 0x1000#32 0x00412103#32 [(2, 0x2000#32)] dataV4 (fun t => t.readReg 2) =
      some 0x12345678#32 ∧
    after 0x1000#32 0x00812283#32 [(2, 0x2000#32)] dataV4 (fun t => (t.run, t.readReg 5, t.pc, t.instret)) =
      some (.halted .memoryFault, 0#32, 0x1000#32, 0) := by decide

/-! ### V5 -/

theorem test_sb :
    after 0x1000#32 0x00510023#32 [(2, 0x2000#32), (5, 0x12345680#32)] dataV5 (fun t => dataOf t) =
      some ([some 0x80#8, some 0xAA#8, some 0xAA#8, some 0xAA#8, some 0xAA#8, some 0xAA#8, some 0xAA#8, some 0xAA#8]) ∧
    after 0x1000#32 0x000103A3#32 [(2, 0x2000#32), (5, 1#32)] dataV5 (fun t => dataOf t) =
      some ([some 0xAA#8, some 0xAA#8, some 0xAA#8, some 0xAA#8, some 0xAA#8, some 0xAA#8, some 0xAA#8, some 0x00#8]) := by decide

theorem test_sh :
    after 0x1000#32 0x00511123#32 [(2, 0x2000#32), (5, 0x1234ABCD#32)] dataV5 (fun t => dataOf t) =
      some ([some 0xAA#8, some 0xAA#8, some 0xCD#8, some 0xAB#8, some 0xAA#8, some 0xAA#8, some 0xAA#8, some 0xAA#8]) ∧
    after 0x1000#32 0x00211023#32 [(2, 0x2000#32), (5, 1#32)] dataV5 (fun t => dataOf t) =
      some ([some 0x00#8, some 0x20#8, some 0xAA#8, some 0xAA#8, some 0xAA#8, some 0xAA#8, some 0xAA#8, some 0xAA#8]) := by decide

theorem test_sw :
    after 0x1000#32 0x00512223#32 [(2, 0x2000#32), (5, 0xCAFEBABE#32)] dataV5 (fun t => dataOf t) =
      some ([some 0xAA#8, some 0xAA#8, some 0xAA#8, some 0xAA#8, some 0xBE#8, some 0xBA#8, some 0xFE#8, some 0xCA#8]) ∧
    after 0x1000#32 0x005120A3#32 [(2, 0x2000#32), (5, 0xCAFEBABE#32)] dataV5 (fun t => dataOf t) =
      some ([some 0xAA#8, some 0xBE#8, some 0xBA#8, some 0xFE#8, some 0xCA#8, some 0xAA#8, some 0xAA#8, some 0xAA#8]) := by decide

theorem test_sw_fault_writes_no_byte :
    after 0x1000#32 0x00512323#32 [(2, 0x2000#32), (5, 1#32)] dataV5 (fun t => (t.run, dataOf t)) =
      some (.halted .memoryFault, [some 0xAA#8, some 0xAA#8, some 0xAA#8, some 0xAA#8, some 0xAA#8, some 0xAA#8, some 0xAA#8, some 0xAA#8]) := by decide

/-! ### V6 -/

theorem test_beq :
    after 0x1000#32 0x00208863#32 [(1, 5#32), (2, 5#32)] [] (fun t => t.pc) =
      some 0x1010#32 ∧
    after 0x1000#32 0x00208863#32 [(1, 0xFFFFFFFF#32), (2, 1#32)] [] (fun t => t.pc) =
      some 0x1004#32 ∧
    after 0x1000#32 0x00208863#32 [(1, 1#32), (2, 0xFFFFFFFF#32)] [] (fun t => t.pc) =
      some 0x1004#32 ∧
    after 0x1000#32 0x00208863#32 [(1, 0x80000000#32), (2, 0x7FFFFFFF#32)] [] (fun t => t.pc) =
      some 0x1004#32 := by decide

theorem test_bne :
    after 0x1000#32 0x00209863#32 [(1, 5#32), (2, 5#32)] [] (fun t => t.pc) =
      some 0x1004#32 ∧
    after 0x1000#32 0x00209863#32 [(1, 0xFFFFFFFF#32), (2, 1#32)] [] (fun t => t.pc) =
      some 0x1010#32 ∧
    after 0x1000#32 0x00209863#32 [(1, 1#32), (2, 0xFFFFFFFF#32)] [] (fun t => t.pc) =
      some 0x1010#32 ∧
    after 0x1000#32 0x00209863#32 [(1, 0x80000000#32), (2, 0x7FFFFFFF#32)] [] (fun t => t.pc) =
      some 0x1010#32 := by decide

theorem test_blt :
    after 0x1000#32 0x0020C863#32 [(1, 5#32), (2, 5#32)] [] (fun t => t.pc) =
      some 0x1004#32 ∧
    after 0x1000#32 0x0020C863#32 [(1, 0xFFFFFFFF#32), (2, 1#32)] [] (fun t => t.pc) =
      some 0x1010#32 ∧
    after 0x1000#32 0x0020C863#32 [(1, 1#32), (2, 0xFFFFFFFF#32)] [] (fun t => t.pc) =
      some 0x1004#32 ∧
    after 0x1000#32 0x0020C863#32 [(1, 0x80000000#32), (2, 0x7FFFFFFF#32)] [] (fun t => t.pc) =
      some 0x1010#32 := by decide

theorem test_bge :
    after 0x1000#32 0x0020D863#32 [(1, 5#32), (2, 5#32)] [] (fun t => t.pc) =
      some 0x1010#32 ∧
    after 0x1000#32 0x0020D863#32 [(1, 0xFFFFFFFF#32), (2, 1#32)] [] (fun t => t.pc) =
      some 0x1004#32 ∧
    after 0x1000#32 0x0020D863#32 [(1, 1#32), (2, 0xFFFFFFFF#32)] [] (fun t => t.pc) =
      some 0x1010#32 ∧
    after 0x1000#32 0x0020D863#32 [(1, 0x80000000#32), (2, 0x7FFFFFFF#32)] [] (fun t => t.pc) =
      some 0x1004#32 := by decide

theorem test_bltu :
    after 0x1000#32 0x0020E863#32 [(1, 5#32), (2, 5#32)] [] (fun t => t.pc) =
      some 0x1004#32 ∧
    after 0x1000#32 0x0020E863#32 [(1, 0xFFFFFFFF#32), (2, 1#32)] [] (fun t => t.pc) =
      some 0x1004#32 ∧
    after 0x1000#32 0x0020E863#32 [(1, 1#32), (2, 0xFFFFFFFF#32)] [] (fun t => t.pc) =
      some 0x1010#32 ∧
    after 0x1000#32 0x0020E863#32 [(1, 0x80000000#32), (2, 0x7FFFFFFF#32)] [] (fun t => t.pc) =
      some 0x1004#32 := by decide

theorem test_bgeu :
    after 0x1000#32 0x0020F863#32 [(1, 5#32), (2, 5#32)] [] (fun t => t.pc) =
      some 0x1010#32 ∧
    after 0x1000#32 0x0020F863#32 [(1, 0xFFFFFFFF#32), (2, 1#32)] [] (fun t => t.pc) =
      some 0x1010#32 ∧
    after 0x1000#32 0x0020F863#32 [(1, 1#32), (2, 0xFFFFFFFF#32)] [] (fun t => t.pc) =
      some 0x1004#32 ∧
    after 0x1000#32 0x0020F863#32 [(1, 0x80000000#32), (2, 0x7FFFFFFF#32)] [] (fun t => t.pc) =
      some 0x1010#32 := by decide

theorem test_branch_target_base_and_wrap :
    after 0x2000#32 0xFE0000E3#32 [] [] (fun t => t.pc) =
      some 0x1FE0#32 ∧
    after 0x0010#32 0xFE0000E3#32 [] [] (fun t => t.pc) =
      some 0xFFFFFFF0#32 ∧
    after 0x2000#32 0xFE000EE3#32 [] [] (fun t => t.pc) =
      some 0x1FFC#32 := by decide

/-! ### V7, V8 -/

theorem test_jal :
    after 0x00100000#32 0x800000EF#32 [] [] (fun t => (t.readReg 1, t.pc)) =
      some (0x00100004#32, 0#32) ∧
    after 0xFFFFFFFC#32 0x010000EF#32 [] [] (fun t => (t.readReg 1, t.pc)) =
      some (0#32, 0xC#32) := by decide

theorem test_jalr :
    after 0x1000#32 0xFFD282E7#32 [(5, 0x2004#32)] [] (fun t => (t.readReg 5, t.pc)) =
      some (0x1004#32, 0x2000#32) ∧
    after 0x1000#32 0x800280E7#32 [(5, 0x400#32)] [] (fun t => (t.readReg 1, t.pc)) =
      some (0x1004#32, 0xFFFFFC00#32) := by decide

theorem test_lui :
    after 0x1000#32 0x123452B7#32 [] [] (fun t => t.readReg 5) =
      some 0x12345000#32 ∧
    after 0x1000#32 0xFFFFF2B7#32 [] [] (fun t => t.readReg 5) =
      some 0xFFFFF000#32 := by decide

theorem test_auipc :
    after 0x80000000#32 0x80000097#32 [] [] (fun t => t.readReg 1) =
      some 0#32 ∧
    after 0x1000#32 0x00001297#32 [] [] (fun t => t.readReg 5) =
      some 0x2000#32 := by decide

/-! ### V9, V10 -/

theorem test_ecall_getchar_at_the_end_and_putchar :
    after 0x1000#32 0x00000073#32 [(17, 1#32)] [] (fun t => (t.readReg 10, t.pc, t.instret)) =
      some (0xFFFFFFFF#32, 0x1004#32, 1) ∧
    after 0x1000#32 0x00000073#32 [(17, 2#32), (10, 0x12345648#32)] [] (fun t => (t.hostOut, t.readReg 10, t.pc)) =
      some ([0x48#8], 0x12345648#32, 0x1004#32) := by decide

/-- V9, first row: the character 'Z'. -/
theorem test_ecall_getchar :
    result (fun t => (t.readReg 10, t.hostIn, t.pc))
      (step { prepared 0x1000#32 0x00000073#32 [(17, 1#32), (10, 0x12345678#32)] [] with hostIn := [.char 0x5A#8] }) =
      some (0x5A#32, [], 0x1004#32) := by decide

theorem test_ecall_exit_and_unsupported :
    after 0x1000#32 0x00000073#32 [(17, 93#32)] [] (fun t => (t.run, t.pc, t.instret)) =
      some (.halted .exit, 0x1000#32, 1) ∧
    after 0x1000#32 0x00000073#32 [(17, 0x101#32)] [] (fun t => (t.run, t.instret)) =
      some (.halted .unsupportedSyscall, 0) := by decide

theorem test_step_unknown_and_misaligned :
    after 0x1000#32 0xFFFFFFFF#32 [] [] (fun t => (t.run, t.instret)) =
      some (.halted (.unknownInstruction 0x1000#32 0xFFFFFFFF#32), 0) ∧
    after 0x1002#32 0x00000073#32 [] [] (fun t => (t.run, t.instret)) =
      some (.halted (.pcMisaligned 0x1002#32), 0) := by decide

theorem test_step_fetch_fault_and_budget :
    result (fun t => (t.run, t.instret)) (step { State.reset with pc := 0x3000#32 }) =
      some (.halted .memoryFault, 0) ∧
    result (fun t => (t.run, t.instret)) (step { State.reset with budget := some 0, pc := 0x3001#32 }) =
      some (.halted .budgetExceeded, 0) := by decide

/-- A word placed by the host runs as the first instruction after reset. -/
theorem test_withFetchWord :
    result (fun t => (t.readReg 1, t.pc, t.instret)) (step (State.reset.withFetchWord 32 0x7FF00093)) =
      some (0x7FF#32, 4#32, 1) ∧
    result (fun t => t.readReg 1)
      (step ({ State.reset with pc := 7#32, run := .halted .exit, budget := some 0 }.withFetchWord 32 0x7FF00093)) = some 0x7FF#32 ∧
    result (fun t => t.readReg 1)
      (step ({ State.reset with memRules := [⟨.fetch, 4, 0#32, 0xFFFFFFFF#32, false⟩] }.withFetchWord 32 0x7FF00093)) =
      some 0x7FF#32 := by decide

/-- A rule of the environment refuses only what it names (R31). -/
theorem test_memRules :
    (let s := { prepared 0x1000#32 0x00112283#32 [(2, 0x2000#32)] dataV4 with
        memRules := [⟨.load, 4, 0#32, 0xFFFFFFFF#32, true⟩] };
      (s.memFault 0x2001#32 4 .load, s.memFault 0x2000#32 4 .load, s.memFault 0x2001#32 2 .load,
        s.memFault 0x2001#32 4 .store)) = (true, false, false, false) := by decide

/-! ## Witnesses: each obligation with hypotheses has a state and operands that meet them -/

/-- The data bytes around the end of the address space: an access of four bytes at 0xFFFFFFFE wraps. -/
def dataEdge : Memory := [(0, 0x33#8), (1, 0x44#8), (0xFFFFFFFE, 0x11#8), (0xFFFFFFFF, 0x22#8)]

/-- x2 = 0xFFFFFFFE, the edge data, and a word at 0x1000. -/
def edge (word : Word) : State := prepared 0x1000#32 word [(2, 0xFFFFFFFE#32), (5, 0x89ABCDEF#32)] dataEdge

/-- The edge bytes as the byte function of the loads. -/
def edgeBytes : Nat → Byte := fun k => [0x11#8, 0x22#8, 0x33#8, 0x44#8].getD k 0

theorem witness_ResetStateMeetsTheInvariants :
    Memory.wf ({ RunArgs.default with image := dataEdge }).image = true := by decide

theorem witness_RegisterZeroIsHardWired :
    ∃ t, step (prepared 0x1000#32 0x00208033#32 [(1, 5#32), (2, 6#32)] []) = .next t ∧ t.readReg 0 = 0#32 := next_of_result (by decide)

theorem witness_ByteLoads :
    (edge 0#32).memFault ((edge 0#32).readReg 2 + 1#32) 1 .load = false ∧
    ∀ k, k < 1 → (edge 0#32).byteAt ((edge 0#32).readReg 2 + 1#32 + BitVec.ofNat 32 k) = some (edgeBytes (k + 1)) := by decide

theorem witness_HalfWordLoads :
    (edge 0#32).memFault ((edge 0#32).readReg 2 + 1#32) 2 .load = false ∧
    ∀ k, k < 2 → (edge 0#32).byteAt ((edge 0#32).readReg 2 + 1#32 + BitVec.ofNat 32 k) = some (edgeBytes (k + 1)) := by decide

theorem witness_WordLoad :
    (edge 0#32).memFault ((edge 0#32).readReg 2 + 0#32) 4 .load = false ∧
    ∀ k, k < 4 → (edge 0#32).byteAt ((edge 0#32).readReg 2 + 0#32 + BitVec.ofNat 32 k) = some (edgeBytes k) := by decide

theorem witness_StoresWriteTheLowBytes :
    (edge 0#32).memFault ((edge 0#32).readReg 2 + 1#32) 1 .store = false ∧
    (edge 0#32).memFault ((edge 0#32).readReg 2 + 1#32) 2 .store = false ∧
    (edge 0#32).memFault ((edge 0#32).readReg 2 + 0#32) 4 .store = false := by decide

theorem witness_FailingDataAccessHalts :
    (∀ n ∈ [1, 2, 4], (edge 0#32).memFault ((edge 0#32).readReg 2 + 4#32) n .load = true) ∧
    (∀ n ∈ [1, 2, 4], (edge 0#32).memFault ((edge 0#32).readReg 2 + 4#32) n .store = true) ∧
    (edge 0#32).memFault ((edge 0#32).readReg 2 + 1#32) 4 .store = true ∧
    (edge 0#32).memFault ((edge 0#32).readReg 2 + 3#32) 2 .load = true := by decide

/-- Both sides of each condition are met by states whose x1, x2 differ in signed and unsigned order. -/
abbrev operands (a b : Word) : Word × Word :=
  ((prepared 0x1000#32 0#32 [(1, a), (2, b)] []).readReg 1, (prepared 0x1000#32 0#32 [(1, a), (2, b)] []).readReg 2)

theorem witness_Branches :
    (operands 5#32 5#32).1 = (operands 5#32 5#32).2 ∧ (operands 0#32 1#32).1 ≠ (operands 0#32 1#32).2 ∧
    ((operands 0xFFFFFFFF#32 1#32).1.toInt < (operands 0xFFFFFFFF#32 1#32).2.toInt ∧
      (operands 0xFFFFFFFF#32 1#32).1.toNat ≥ (operands 0xFFFFFFFF#32 1#32).2.toNat) ∧
    ((operands 1#32 0xFFFFFFFF#32).1.toInt ≥ (operands 1#32 0xFFFFFFFF#32).2.toInt ∧
      (operands 1#32 0xFFFFFFFF#32).1.toNat < (operands 1#32 0xFFFFFFFF#32).2.toNat) := by decide

/-- A state at 0x1000 with budget for two steps and the given x1, x2 and x5. -/
def transfer (a b base : Word) : State :=
  { prepared 0x1000#32 0#32 [(1, a), (2, b), (5, base)] [] with budget := some 2 }

theorem transfer_twoStepsLeft (a b base : Word) : TwoStepsLeft (transfer a b base) :=
  ⟨rfl, by rintro n h; cases h; exact (by decide : 1 < 2)⟩

/-- For each clause a state that meets it: BEQ, BGE, BGEU taken; BNE, BLT, BLTU taken; JAL; JALR with the base of R175's
example, with an odd base, and with an odd sum. -/
theorem witness_MisalignedTargetHaltsAtTheNextStep :
    ((transfer 5#32 5#32 0#32).readReg 1 = (transfer 5#32 5#32 0#32).readReg 2 ∧
      ((transfer 5#32 5#32 0#32).pc + 0xFFFFF002#32).toNat % 4 ≠ 0) ∧
    ((transfer 0#32 1#32 0#32).readReg 1 ≠ (transfer 0#32 1#32 0#32).readReg 2 ∧
      ((transfer 0#32 1#32 0#32).readReg 1).toInt < ((transfer 0#32 1#32 0#32).readReg 2).toInt ∧
      ((transfer 0#32 1#32 0#32).readReg 1).toNat < ((transfer 0#32 1#32 0#32).readReg 2).toNat ∧
      ((transfer 0#32 1#32 0#32).pc + 4094#32).toNat % 4 ≠ 0) ∧
    (jalrTarget ((transfer 0#32 0#32 0x2006#32).readReg 5) 0#32).toNat % 4 = 2 ∧
    (jalrTarget ((transfer 0#32 0#32 0x2001#32).readReg 5) 1#32).toNat % 4 = 2 ∧
    (jalrTarget ((transfer 0#32 0#32 0xFFFFFFFF#32).readReg 5) 4#32).toNat % 4 = 2 := by decide

theorem witness_LuiLoadsTheUpperImmediate :
    (31 : RegIdx) ≠ 0 ∧ (0x89ABCDEF#32 - ((0x89ABCDEF#32).setWidth 12).signExtend 32) = 0x89ABD000#32 ∧
    (((0x89ABCDEF#32).setWidth 12).signExtend 32) = 0xFFFFFDEF#32 := by decide

theorem witness_GetCharDeliversTheNextInput :
    (prepared 0#32 0#32 [(17, 1#32)] []).readReg 17 = 1#32 ∧
    (∃ s : State, s.readReg 17 = 1#32 ∧ s.hostIn = .char 0xFF#8 :: []) ∧
    (∃ s : State, s.readReg 17 = 1#32 ∧ s.hostIn = .draw 0xFFFFFFFF#32 :: [.char 0#8]) ∧
    (∃ s : State, s.readReg 17 = 1#32 ∧ s.hostIn = [] ∧ s.hostInEnded = true) ∧
    (∃ s : State, s.readReg 17 = 1#32 ∧ s.hostIn = [] ∧ s.hostInEnded = false) :=
  ⟨by decide,
   ⟨{ prepared 0#32 0#32 [(17, 1#32)] [] with hostIn := [.char 0xFF#8] }, by decide, rfl⟩,
   ⟨{ prepared 0#32 0#32 [(17, 1#32)] [] with hostIn := [.draw 0xFFFFFFFF#32, .char 0#8] }, by decide, rfl⟩,
   ⟨prepared 0#32 0#32 [(17, 1#32)] [], by decide, by decide, by decide⟩,
   ⟨{ prepared 0#32 0#32 [(17, 1#32)] [] with hostInEnded := false }, by decide, by decide, by decide⟩⟩

theorem witness_PutCharAppendsTheLowByte :
    (prepared 0#32 0#32 [(17, 2#32)] []).readReg 17 = 2#32 := by decide

theorem witness_ExitHaltsCleanly :
    (prepared 0#32 0#32 [(17, 3#32)] []).readReg 17 = 3#32 ∧
    (prepared 0#32 0#32 [(17, 93#32)] []).readReg 17 = 93#32 := by decide

/-- x17 holds no service code. -/
abbrev noService (code : Word) : Prop :=
  (prepared 0#32 0#32 [(17, code)] []).readReg 17 ≠ 1#32 ∧ (prepared 0#32 0#32 [(17, code)] []).readReg 17 ≠ 2#32 ∧
  (prepared 0#32 0#32 [(17, code)] []).readReg 17 ≠ 3#32 ∧ (prepared 0#32 0#32 [(17, code)] []).readReg 17 ≠ 93#32

theorem witness_UnsupportedSyscallHalts :
    noService 0#32 ∧ noService 4#32 ∧ noService 92#32 ∧ noService 0x101#32 ∧ noService 0xFFFFFFFF#32 := by decide

theorem witness_DecodeInvertsEncode :
    ∀ i ∈ [Instr.add 31 0 31, .srai 1 2 31#5, .addi 31 31 0xFFFFF800#32, .lw 5 2 2047#32, .sw 2 5 0xFFFFF800#32,
      .beq 1 2 0xFFFFF000#32, .bgeu 1 2 4094#32, .jal 1 0xFFF00000#32, .jalr 1 5 2047#32, .lui 31 0xFFFFF000#32, .ecall],
    i.wellFormed = true := by decide

theorem witness_EncodeInvertsDecode :
    decodeInstr 0x8020F063#32 = .ok (.bgeu 1 2 0xFFFFF000#32) := by decide

/-- Every format occurs among the decoded words. -/
theorem witness_DecodedImmediatesRoundTrip :
    (decode 0xFFF00293#32).format = .i ∧ (decode 0x80512023#32).format = .s ∧ (decode 0x8020F063#32).format = .b ∧
    (decode 0xFFFFFFB7#32).format = .u ∧ (decode 0x800000EF#32).format = .j := by decide

theorem witness_EcallIsOneWordOfItsOpcode :
    (0x00000073#32).extractLsb' 0 7 = 0b1110011#7 ∧ (0x30200073#32).extractLsb' 0 7 = 0b1110011#7 ∧
    0x30200073#32 ≠ 0x00000073#32 := by decide

/-- A state that can run, with budget for one more instruction. -/
def ready (word : Word) : State := { prepared 0xFFFFFFFC#32 word [] [] with budget := some 1 }

theorem witness_CanRun_FetchBytes (word : Word) (hb : ∀ k, k < 4 →
    (ready word).byteAt ((ready word).pc + BitVec.ofNat 32 k) = some ((leBytes 4 word).getD k 0))
    (hf : (ready word).memFault (ready word).pc 4 .fetch = false) (hr : (ready word).run = .running)
    (hp : (ready word).pc.toNat % 4 = 0) (hn : (ready word).budget = some 1 ∧ (ready word).instret = 0) :
    CanRun (ready word) ∧ FetchBytes (ready word) (fun k => (leBytes 4 word).getD k 0) :=
  ⟨⟨hr, fun n h => by rw [hn.1] at h; cases h; rw [hn.2]; decide, hp⟩, hf, hb⟩

theorem witness_StepRunsTheDecodedInstruction :
    CanRun (ready 0x800000EF#32) ∧
    FetchBytes (ready 0x800000EF#32) (fun k => (leBytes 4 0x800000EF#32).getD k 0) ∧
    decodeInstr 0x800000EF#32 = .ok (.jal 1 0xFFF00000#32) :=
  have h := witness_CanRun_FetchBytes 0x800000EF#32 (by decide) (by decide) (by decide) (by decide) (by decide)
  ⟨h.1, h.2, by decide⟩

theorem witness_UnknownWordHalts :
    CanRun (ready 0x00100073#32) ∧
    FetchBytes (ready 0x00100073#32) (fun k => (leBytes 4 0x00100073#32).getD k 0) ∧
    mnemonic (decode 0x00100073#32) = .unknown :=
  have h := witness_CanRun_FetchBytes 0x00100073#32 (by decide) (by decide) (by decide) (by decide) (by decide)
  ⟨h.1, h.2, by decide⟩

theorem witness_UsedUpBudgetHaltsFirst :
    let s := { prepared 0x1001#32 0#32 [] [] with budget := some 0 }
    s.run = .running ∧ s.budget = some 0 ∧ 0 ≤ s.instret := by decide

theorem witness_MisalignedPcHaltsBeforeTheFetch :
    ∃ s : State, s.run = .running ∧ (∀ n, s.budget = some n → s.instret < n) ∧ s.pc.toNat % 4 ≠ 0 :=
  ⟨{ State.reset with pc := 0xFFFFFFFF#32, budget := some 1 }, rfl, (by rintro n h; cases h; decide), by decide⟩

theorem witness_FailingFetchHalts :
    CanRun { State.reset with pc := 0xFFFFFFFC#32 } ∧
    State.memFault { State.reset with pc := 0xFFFFFFFC#32 } 0xFFFFFFFC#32 4 .fetch = true :=
  ⟨⟨rfl, (by rintro n h; cases h), by decide⟩, by decide⟩

theorem witness_HaltedIsTerminal :
    ({ State.reset with run := .halted (.pcMisaligned 2#32) }).run = .halted (.pcMisaligned 2#32) := by decide

/-- A step that halts by a fault, and one that exits. -/
theorem witness_HaltingCommitsNothing :
    (∃ t, step (prepared 0x1000#32 0x00812283#32 [(2, 0x2000#32)] dataV4) = .next t ∧
      t.run = .halted .memoryFault) ∧
    ∃ t, step (prepared 0x1000#32 0x00000073#32 [(17, 93#32)] []) = .next t ∧ t.run = .halted .exit := ⟨next_of_result (by decide), next_of_result (by decide)⟩

theorem witness_InstretCountsAndIsUnreadable :
    (∃ t, step (prepared 0x1000#32 0x002081B3#32 [] []) = .next t ∧ t.run = .running) ∧
    (∃ t, step (prepared 0x1000#32 0x00000073#32 [(17, 3#32)] []) = .next t ∧ t.run = .halted .exit) ∧
    (∃ t, step (prepared 0x1002#32 0#32 [] []) = .next t ∧ t.run = .halted (.pcMisaligned 0x1002#32)) ∧
    (∃ t, exec (.sw 2 5 0#32) (edge 0#32) = .next t ∧ t.instret = 1) ∧
    exec .ecall { prepared 0#32 0#32 [(17, 1#32)] [] with hostInEnded := false } = .fault .inputBlocked :=
  ⟨next_of_result (by decide), next_of_result (by decide), next_of_result (by decide), next_of_result (by decide), rfl⟩

theorem witness_OnlyEcallTouchesTheHostStreams :
    (∃ t, exec (.sw 2 5 0#32) (edge 0#32) = .next t ∧ t.hostOut = []) ∧
    (∃ t, exec .ecall (prepared 0#32 0#32 [(17, 2#32), (10, 0x48#32)] []) = .next t ∧ t.hostOut = [0x48#8]) ∧
    ∃ t, exec .ecall { prepared 0#32 0#32 [(17, 1#32)] [] with hostIn := [.char 0x5A#8] } = .next t ∧ t.hostIn = [] :=
  ⟨next_of_result (by decide), next_of_result (by decide), next_of_result (by decide)⟩

/-- A load and a store that succeed, a store that faults, and an instruction without a data access. -/
theorem witness_OnlyLoadsAndStoresUseMemory :
    (∃ t, exec (.lw 5 2 0#32) (edge 0#32) = .next t ∧ t.readReg 5 = 0x44332211#32) ∧
    (∃ t, exec (.sw 2 5 0#32) (edge 0#32) = .next t ∧ t.byteAt 1#32 = some 0x89#8) ∧
    (∃ t, exec (.sw 2 5 1#32) (edge 0#32) = .next t ∧ t.run = .halted .memoryFault) ∧
    (∃ t, exec (.add 5 2 2) (edge 0#32) = .next t ∧ t.readReg 5 = 0xFFFFFFFC#32) ∧
    dataAccess (.lw 5 2 0#32) (edge 0#32) = some (0xFFFFFFFE#32, 4, .load) ∧
    dataAccess (.sw 2 5 1#32) (edge 0#32) = some (0xFFFFFFFF#32, 4, .store) ∧
    dataAccess (.add 5 2 2) (edge 0#32) = none :=
  ⟨next_of_result (by decide), next_of_result (by decide), next_of_result (by decide), next_of_result (by decide),
    by decide, by decide, by decide⟩

/-- The hypotheses of the two register statements: a word, its instruction, its next state, and a register the
statement speaks of, for an instruction with rd, one without, and ECALL. -/
theorem witness_RegisterStatements :
    (decodeInstr 0x0020F1B3#32 = .ok (.and 3 1 2) ∧ (2 : RegIdx) ≠ regOf (decode 0x0020F1B3#32).rd ∧
      (3 : RegIdx) ≠ regOf (decode 0x0020F1B3#32).rs1 ∧ (3 : RegIdx) ≠ regOf (decode 0x0020F1B3#32).rs2 ∧
      ∃ t, exec (.and 3 1 2) State.reset = .next t ∧ t.readReg 3 = 0#32) ∧
    (decodeInstr 0x00512023#32 = .ok (.sw 2 5 0#32) ∧ (31 : RegIdx) ≠ regOf (decode 0x00512023#32).rs1 ∧
      (31 : RegIdx) ≠ regOf (decode 0x00512023#32).rs2 ∧ (5 : RegIdx) ≠ regOf (decode 0x00512023#32).rd ∧
      ∃ t, exec (.sw 2 5 0#32) (edge 0#32) = .next t ∧ t.readReg 5 = 0x89ABCDEF#32) ∧
    (decodeInstr 0x00000073#32 = .ok .ecall ∧ (5 : RegIdx) ≠ 17 ∧ (5 : RegIdx) ≠ 10 ∧
      (prepared 0#32 0#32 [(17, 1#32)] []).readReg 17 = 1#32 ∧
      ∃ t, exec .ecall (prepared 0#32 0#32 [(17, 1#32)] []) = .next t ∧ t.readReg 10 = 0xFFFFFFFF#32) :=
  ⟨⟨by decide, by decide, by decide, by decide, next_of_result (by decide)⟩,
   ⟨by decide, by decide, by decide, by decide, next_of_result (by decide)⟩,
   ⟨by decide, by decide, by decide, by decide, next_of_result (by decide)⟩⟩

/-- A register that is the word's rd and neither of its sources, and an instruction that completes. -/
theorem witness_ReadOnlyTheirSources_rd :
    (3 : RegIdx) = regOf (decode 0x0020F1B3#32).rd ∧ (3 : RegIdx) ≠ 0 ∧
    (3 : RegIdx) ≠ regOf (decode 0x0020F1B3#32).rs1 ∧ (3 : RegIdx) ≠ regOf (decode 0x0020F1B3#32).rs2 ∧
    ∃ t, exec (.and 3 1 2) State.reset = .next t ∧ t.instret = State.reset.instret + 1 :=
  ⟨by decide, by decide, by decide, by decide, next_of_result (by decide)⟩

/-- A JALR that completes, a branch that is taken and one that is not. -/
theorem witness_PcCalculatorGivesTheCommittedPc :
    (decodeInstr 0xFFD282E7#32 = .ok (.jalr 5 5 0xFFFFFFFD#32) ∧
      mnemonic (decode 0xFFD282E7#32) = .jalr ∧ regOf (decode 0xFFD282E7#32).rd ≠ 0 ∧
      ∃ t, exec (.jalr 5 5 0xFFFFFFFD#32) (prepared 0x1000#32 0#32 [(5, 0x2004#32)] []) = .next t ∧ t.run = .running) ∧
    (decodeInstr 0x0020C863#32 = .ok (.blt 1 2 16#32) ∧
      comparator (decode 0x0020C863#32).funct3 0xFFFFFFFF#32 1#32 = true ∧
      comparator (decode 0x0020C863#32).funct3 1#32 0xFFFFFFFF#32 = false ∧
      ∃ t, exec (.blt 1 2 16#32) (prepared 0x1000#32 0#32 [(1, 0xFFFFFFFF#32), (2, 1#32)] []) = .next t ∧
        t.run = .running) :=
  ⟨⟨by decide, by decide, by decide, next_of_result (by decide)⟩,
   ⟨by decide, by decide, by decide, next_of_result (by decide)⟩⟩

/-- The premises of the invariants together, at a store that completes. -/
theorem witness_Invariants :
    let s := { edge 0x00512023#32 with budget := some 1 }
    Memory.wf s.mem = true ∧ s.withinBudget ∧ s.haltJustified ∧ s.pc.toNat % 2 = 0 ∧
    ∃ t, step s = .next t ∧ t.byteAt 0xFFFFFFFE#32 = some 0xEF#8 :=
  ⟨by decide, (by rintro n h; cases h; decide), trivial, by decide, next_of_result (by decide)⟩

/-- A memory-faulting step from a state that meets the halt-reason invariant. -/
theorem witness_StepKeepsTheHaltReasonTrue :
    (edge 0x00A12283#32).haltJustified ∧
    ∃ t, step (edge 0x00A12283#32) = .next t ∧ t.run = .halted .memoryFault := ⟨trivial, next_of_result (by decide)⟩

theorem witness_MixedWidthReadsSeeTheStoredWord :
    (edge 0#32).memRules = [] ∧ ((edge 0#32).memWrite 0xFFFFFFFE#32 4 0x89ABCDEF#32).isSome = true := by decide

/-- SW x5, 4(x2) at 0x1000 with x2 = 0x1000 puts a word (ADDI x1, x1, 1) at the next pc. -/
theorem witness_StoredWordIsFetchedByTheNextStep :
    ∃ s : State, s.run = .running ∧ s.pc.toNat % 4 = 0 ∧ (∀ n, s.budget = some n → s.instret + 1 < n) ∧
    s.readReg 2 + 4#32 = s.pc + 4#32 ∧ decodeInstr (s.readReg 5) = .ok (.addi 1 1 1#32) ∧
    ∃ t, exec (.sw 2 5 4#32) s = .next t ∧ (t.run, t.memFault t.pc 4 .fetch) = (.running, false) :=
  ⟨{ prepared 0x1000#32 0x00512223#32 [(2, 0x1000#32), (5, 0x00108093#32)]
      [(0x1004, 0#8), (0x1005, 0#8), (0x1006, 0#8), (0x1007, 0#8)] with budget := some 2 },
    by decide, by decide, (by rintro n h; cases h; decide), by decide, by decide, next_of_result (by decide)⟩

theorem witness_CanonicalMemoriesAreEqualWhenTheyReadEqual :
    Memory.wf dataEdge = true ∧ Memory.wf (Memory.writeByte (Memory.writeByte dataEdge 0 0x77#8) 0 0x33#8) = true ∧
    ∀ a : Word, Memory.readByte dataEdge a.toNat =
      Memory.readByte (Memory.writeByte (Memory.writeByte dataEdge 0 0x77#8) 0 0x33#8) a.toNat := ⟨by decide, by decide, fun _ => rfl⟩

/-- Populated bytes around the end of the address space with no clause, an access one byte further, and a clause. -/
theorem witness_MemFaultIsUnpopulatedOrRefused :
    ((∀ k, k < 4 → ((edge 0#32).byteAt (0xFFFFFFFE#32 + BitVec.ofNat 32 k)).isSome = true) ∧ (edge 0#32).memRules = []) ∧
    (3 < 4 ∧ (edge 0#32).byteAt (0xFFFFFFFF#32 + BitVec.ofNat 32 3) = none) ∧
    (∀ f ∈ [(⟨.load, 4, 0xFFFFFFFE#32, 0xFFFFFFFE#32, true⟩ : FaultRule)], f.applies 0xFFFFFFFE#32 4 .load = true) := by decide

end Sys2Proof.Tests
end

section
/-! PROOF. Family 00_scope: what a run starts from and what none of its steps changes (spec/00_scope.md R5,
spec/20_memory.md R30, R34, spec/70_reset_and_hazards.md R260). -/

namespace Sys2Proof.Machine

/-! ## The invariants at reset -/

/-- No instruction has completed at reset, so any budget bounds instret. -/
theorem State.withinBudget_resetWith (a : RunArgs) : (State.resetWith a).withinBudget :=
  fun n _ => Nat.zero_le n

/-- A run starts in Running, where no halt asks for a reason. -/
theorem State.haltJustified_resetWith (a : RunArgs) : (State.resetWith a).haltJustified := trivial

/-- The default image lists no byte, so it is in canonical form. -/
theorem RunArgs.wf_default_image : Memory.wf RunArgs.default.image = true := rfl

/-- The memory at reset is the image, and the two other invariants ask nothing of the arguments. -/
theorem State.invariants_resetWith (a : RunArgs) (himage : Memory.wf a.image = true) :
    Memory.wf (State.resetWith a).mem = true ∧ (State.resetWith a).withinBudget ∧ (State.resetWith a).haltJustified :=
  ⟨himage, State.withinBudget_resetWith a, State.haltJustified_resetWith a⟩

/-- Settles O2: the default run is one run with a canonical image, and it starts at the even address 0. -/
theorem resetStateMeetsTheInvariants : Obligations.ResetStateMeetsTheInvariants := by
  unfold Obligations.ResetStateMeetsTheInvariants
  obtain ⟨hwf, hbudget, hhalt⟩ := State.invariants_resetWith RunArgs.default RunArgs.wf_default_image
  exact ⟨⟨hwf, hbudget, hhalt, rfl⟩, State.invariants_resetWith⟩

/-! ## What every step keeps -/

/-- The run's arguments are the same, and so are the populated addresses. -/
structure KeepsArgumentsAndPopulation (s t : State) : Prop where
  args : SameArguments s t
  population : ∀ a : Word, (t.byteAt a).isSome = (s.byteAt a).isSome

/-- Where every byte reads as before, the same addresses are populated. -/
theorem KeepsArgumentsAndPopulation.of_sameBytes {s t : State} (hargs : SameArguments s t) (hbytes : SameBytes s t) :
    KeepsArgumentsAndPopulation s t :=
  ⟨hargs, fun a => by rw [hbytes a]⟩

theorem KeepsArgumentsAndPopulation.trans {s t u : State} (hst : KeepsArgumentsAndPopulation s t)
    (htu : KeepsArgumentsAndPopulation t u) : KeepsArgumentsAndPopulation s u where
  args :=
    { memRules := htu.args.memRules.trans hst.args.memRules
      hostInEnded := htu.args.hostInEnded.trans hst.args.hostInEnded
      getcharEof := htu.args.getcharEof.trans hst.args.getcharEof
      budget := htu.args.budget.trans hst.args.budget }
  population a := (htu.population a).trans (hst.population a)

theorem State.commit_keepsArgumentsAndPopulation (s : State) (rd : RegIdx) (v p : Word) :
    KeepsArgumentsAndPopulation s (s.commit rd v p) :=
  have h := s.commit_writesOnly rd v p
  .of_sameBytes h.completed.args h.bytes

theorem State.retire_keepsArgumentsAndPopulation (s : State) (p : Word) :
    KeepsArgumentsAndPopulation s (s.retire p) :=
  have h := s.retire_movesPcOnly p
  .of_sameBytes h.completed.args h.bytes

theorem State.halt_keepsArgumentsAndPopulation (s : State) (r : HaltReason) :
    KeepsArgumentsAndPopulation s (s.halt r) :=
  have h := s.halt_haltsOnly r
  .of_sameBytes h.args h.bytes

theorem State.haltExit_keepsArgumentsAndPopulation (s : State) : KeepsArgumentsAndPopulation s s.haltExit :=
  .of_sameBytes ⟨rfl, rfl, rfl, rfl⟩ s.byteAt_haltExit

theorem State.hostPutChar_keepsArgumentsAndPopulation (s : State) (b : Byte) :
    KeepsArgumentsAndPopulation s (s.hostPutChar b) :=
  .of_sameBytes ⟨rfl, rfl, rfl, rfl⟩ (s.byteAt_hostPutChar b)

/-- A getchar takes a value off the input stream and leaves the bit that says whether the stream ends (R192). -/
theorem State.hostGetChar_keepsArgumentsAndPopulation {s u : State} {v : Word} (h : s.hostGetChar = some (v, u)) :
    KeepsArgumentsAndPopulation s u := by
  obtain ⟨rest, rfl, -⟩ := State.hostGetChar_some h
  exact .of_sameBytes ⟨rfl, rfl, rfl, rfl⟩ fun _ => rfl

/-- A store the memory does not refuse finds all its bytes populated (D11), so it populates none. -/
theorem State.memWrite_keepsArgumentsAndPopulation {s u : State} {a : Word} {n : Nat} {v : Word}
    (h : s.memWrite a n v = some u) : KeepsArgumentsAndPopulation s u := by
  obtain ⟨hfault, rfl⟩ := (s.memWrite_eq_some_iff a n v u).1 h
  obtain ⟨⟨bs, hbs⟩, -⟩ := (s.memFault_eq_false_iff a n .store).1 hfault
  have hpopulated : (Memory.bytesAt s.mem a (leBytes n v).length).isSome = true := by
    rw [leBytes_length, hbs, Option.isSome_some]
  exact ⟨⟨rfl, rfl, rfl, rfl⟩, fun c => Memory.isSome_writeBytes (leBytes n v) hpopulated c.toNat⟩

/-- ECALL's services touch registers, the host streams and the run state only (R191). -/
theorem execEcall_keepsArgumentsAndPopulation {s t : State} (h : execEcall s = .next t) :
    KeepsArgumentsAndPopulation s t := by
  obtain ⟨-, v, u, hget, rfl⟩ | ⟨-, rfl⟩ | ⟨-, rfl⟩ | ⟨-, rfl⟩ := execEcall_cases h
  · exact (State.hostGetChar_keepsArgumentsAndPopulation hget).trans (u.commit_keepsArgumentsAndPopulation 10 v _)
  · exact (s.hostPutChar_keepsArgumentsAndPopulation _).trans (State.retire_keepsArgumentsAndPopulation _ _)
  · exact s.haltExit_keepsArgumentsAndPopulation
  · exact s.halt_keepsArgumentsAndPopulation .unsupportedSyscall

theorem exec_keepsArgumentsAndPopulation {i : Instr} {s t : State} (h : exec i s = .next t) :
    KeepsArgumentsAndPopulation s t := by
  obtain ⟨rd, v, p, rfl⟩ | ⟨p, rfl⟩ | ⟨a, n, v, u, -, -, hwrite, rfl⟩ | ⟨a, n, k, -, -, rfl⟩ | ⟨-, hecall⟩ :=
    exec_cases h
  · exact s.commit_keepsArgumentsAndPopulation rd v p
  · exact s.retire_keepsArgumentsAndPopulation p
  · exact (State.memWrite_keepsArgumentsAndPopulation hwrite).trans (u.retire_keepsArgumentsAndPopulation _)
  · exact s.halt_keepsArgumentsAndPopulation .memoryFault
  · exact execEcall_keepsArgumentsAndPopulation hecall

theorem step_keepsArgumentsAndPopulation {s t : State} (h : step s = .next t) : KeepsArgumentsAndPopulation s t := by
  obtain ⟨-, ⟨-, rfl⟩ | ⟨-, -, rfl⟩ | ⟨-, -, -, rfl⟩ | ⟨-, -, w, e, -, -, rfl⟩ | ⟨-, -, w, i, -, -, hexec⟩⟩ :=
    step_cases h
  case inr.inr.inr.inr => exact exec_keepsArgumentsAndPopulation hexec
  all_goals exact s.halt_keepsArgumentsAndPopulation _

/-- Settles O53, by the cases of a step: only a store writes memory, and only to bytes that are populated. -/
theorem stepKeepsArgumentsAndPopulation : Obligations.StepKeepsArgumentsAndPopulation := by
  unfold Obligations.StepKeepsArgumentsAndPopulation
  intro s t h
  obtain ⟨hargs, hpopulation⟩ := step_keepsArgumentsAndPopulation h
  exact ⟨hargs, hpopulation⟩

end Sys2Proof.Machine
end

section
/-! PROOF. Family 10_state: the registers an instruction reads and writes, the count of completed steps, the parity of
the pc and the two fixed points x0 and Halted (spec/10_state.md R11 to R14, R17, R19, R20). -/

namespace Sys2Proof

/-! ## What the decoder gives an instruction -/

/-- The opcode of an operation's words (R71 to R80); UNKNOWN has no words. -/
def OperationId.opcode : OperationId → BitVec 7
  | .add | .sub | .sll | .slt | .sltu | .xor | .srl | .sra | .or | .and => 0b0110011#7
  | .addi | .slti | .sltiu | .xori | .ori | .andi | .slli | .srli | .srai => 0b0010011#7
  | .lb | .lh | .lw | .lbu | .lhu => 0b0000011#7
  | .sb | .sh | .sw => 0b0100011#7
  | .beq | .bne | .blt | .bge | .bltu | .bgeu => 0b1100011#7
  | .jal => 0b1101111#7
  | .jalr => 0b1100111#7
  | .lui => 0b0110111#7
  | .auipc => 0b0010111#7
  | .ecall => 0b1110011#7
  | .unknown => 0#7

theorem resolveReg_opcode (f7 : BitVec 7) (f3 : BitVec 3) :
    resolveReg f7 f3 = .unknown ∨ (resolveReg f7 f3).opcode = 0b0110011#7 := by
  unfold resolveReg; split_ifs <;> simp [OperationId.opcode]

theorem resolveImm_opcode (f7 : BitVec 7) (f3 : BitVec 3) :
    resolveImm f7 f3 = .unknown ∨ (resolveImm f7 f3).opcode = 0b0010011#7 := by
  unfold resolveImm; split_ifs <;> simp [OperationId.opcode]

theorem resolveLoad_opcode (f3 : BitVec 3) :
    resolveLoad f3 = .unknown ∨ (resolveLoad f3).opcode = 0b0000011#7 := by
  unfold resolveLoad; split_ifs <;> simp [OperationId.opcode]

theorem resolveStore_opcode (f3 : BitVec 3) :
    resolveStore f3 = .unknown ∨ (resolveStore f3).opcode = 0b0100011#7 := by
  unfold resolveStore; split_ifs <;> simp [OperationId.opcode]

theorem resolveBranch_opcode (f3 : BitVec 3) :
    resolveBranch f3 = .unknown ∨ (resolveBranch f3).opcode = 0b1100011#7 := by
  unfold resolveBranch; split_ifs <;> simp [OperationId.opcode]

/-- A record resolves to an operation of its own opcode. -/
theorem mnemonic_opcode (d : DecodedInstruction) : mnemonic d = .unknown ∨ (mnemonic d).opcode = d.opcode := by
  unfold mnemonic
  split
  case isTrue h => rw [h]; exact resolveReg_opcode d.funct7 d.funct3
  split
  case isTrue h => rw [h]; exact resolveImm_opcode d.funct7 d.funct3
  split
  case isTrue h => rw [h]; exact resolveLoad_opcode d.funct3
  split
  case isTrue h => rw [h]; exact resolveStore_opcode d.funct3
  split
  case isTrue h => rw [h]; exact resolveBranch_opcode d.funct3
  split_ifs <;> simp [OperationId.opcode, *]

theorem mnemonic_opcode_of_assemble {d : DecodedInstruction} {i : Instr} (h : assemble (mnemonic d) d = some i) :
    (mnemonic d).opcode = d.opcode := by
  refine (mnemonic_opcode d).resolve_left fun hunknown => ?_
  simp [hunknown, assemble] at h

/-- The registers an instruction reads (R13). -/
def Instr.sources : Instr → List RegIdx
  | .add _ rs1 rs2 | .sub _ rs1 rs2 | .sll _ rs1 rs2 | .slt _ rs1 rs2 | .sltu _ rs1 rs2 | .xor _ rs1 rs2
  | .srl _ rs1 rs2 | .sra _ rs1 rs2 | .or _ rs1 rs2 | .and _ rs1 rs2 | .sb rs1 rs2 _ | .sh rs1 rs2 _ | .sw rs1 rs2 _
  | .beq rs1 rs2 _ | .bne rs1 rs2 _ | .blt rs1 rs2 _ | .bge rs1 rs2 _ | .bltu rs1 rs2 _ | .bgeu rs1 rs2 _ => [rs1, rs2]
  | .addi _ rs1 _ | .slti _ rs1 _ | .sltiu _ rs1 _ | .xori _ rs1 _ | .ori _ rs1 _ | .andi _ rs1 _ | .slli _ rs1 _
  | .srli _ rs1 _ | .srai _ rs1 _ | .lb _ rs1 _ | .lh _ rs1 _ | .lw _ rs1 _ | .lbu _ rs1 _ | .lhu _ rs1 _
  | .jalr _ rs1 _ => [rs1]
  | .jal _ _ | .lui _ _ | .auipc _ _ => []
  | .ecall => [17, 10]

/-- An instruction's sources are the source fields of its record. -/
theorem mem_sources_of_assemble {op : OperationId} {d : DecodedInstruction} {i : Instr} (h : assemble op d = some i)
    (hi : i ≠ .ecall) {r : RegIdx} (hr : r ∈ i.sources) : r = regOf d.rs1 ∨ r = regOf d.rs2 := by
  cases op <;> cases h
  case ecall => exact absurd rfl hi
  all_goals simp_all [Instr.sources]

/-- The pc-relative offset of an instruction that has one (R161, R172). -/
def Instr.pcOffset : Instr → Option Word
  | .beq _ _ imm | .bne _ _ imm | .blt _ _ imm | .bge _ _ imm | .bltu _ _ imm | .bgeu _ _ imm | .jal _ imm => some imm
  | _ => none

/-- Only branches and JAL carry an offset, the immediate of their record. -/
theorem pcOffset_of_assemble {op : OperationId} {d : DecodedInstruction} {i : Instr} (h : assemble op d = some i)
    {imm : Word} (himm : i.pcOffset = some imm) :
    (op.opcode = 0b1100011#7 ∨ op.opcode = 0b1101111#7) ∧ imm = d.imm := by
  cases op <;> cases h <;> simp_all [Instr.pcOffset, OperationId.opcode]

theorem toNat_even_iff (v : Word) : v.toNat % 2 = 0 ↔ v.getLsbD 0 = false := by
  simp [BitVec.getLsbD, Nat.testBit_zero]

/-- Sign extension keeps the lowest bit, and so an offset even. -/
theorem sext_append_zero_even {n m : Nat} (hn : 0 < n) (v : BitVec m) : (sext n (v ++ 0#1)).toNat % 2 = 0 := by
  rw [toNat_even_iff, sext, BitVec.getLsbD_signExtend, BitVec.getLsbD_setWidth, BitVec.getLsbD_append]
  simp [hn]

/-- R62 puts a zero below the B immediate. -/
theorem immB_even (w : Word) : (immB w).toNat % 2 = 0 := sext_append_zero_even (by decide) _

/-- R64 puts a zero below the J immediate. -/
theorem immJ_even (w : Word) : (immJ w).toNat % 2 = 0 := sext_append_zero_even (by decide) _

theorem decode_imm_branch {w : Word} (h : extract w 0 7 = 0b1100011#7) : (decode w).imm = immB w := by
  simp [decode, classify, h]

theorem decode_imm_jal {w : Word} (h : extract w 0 7 = 0b1101111#7) : (decode w).imm = immJ w := by
  simp [decode, classify, h]

/-- The S and B formats have no rd, and the record holds zero there (R55). -/
theorem decode_rd_eq_zero {w : Word} (h : extract w 0 7 = 0b0100011#7 ∨ extract w 0 7 = 0b1100011#7) :
    (decode w).rd = 0 := by
  rcases h with h | h <;> simp [decode, classify, h]

/-- The offset of a decoded instruction is even. -/
theorem pcOffset_even_of_decodeInstr {w : Word} {i : Instr} (h : decodeInstr w = .ok i) {imm : Word}
    (himm : i.pcOffset = some imm) : imm.toNat % 2 = 0 := by
  have hasm := (decodeInstr_eq_ok_iff w i).1 h
  obtain ⟨hopcode, rfl⟩ := pcOffset_of_assemble hasm himm
  rw [mnemonic_opcode_of_assemble hasm, decode_opcode] at hopcode
  obtain hb | hj := hopcode
  · rw [decode_imm_branch hb]; exact immB_even w
  · rw [decode_imm_jal hj]; exact immJ_even w

end Sys2Proof

namespace Sys2Proof.Machine

/-! ## The two fixed points: x0 and Halted -/

/-- Settles O3: x0 has no storage, so no step can give it a value. -/
theorem registerZeroIsHardWired : Obligations.RegisterZeroIsHardWired := by
  unfold Obligations.RegisterZeroIsHardWired
  exact fun s t v => ⟨s.readReg_zero, s.writeReg_zero v, fun _ => t.readReg_zero⟩

theorem step_of_halted {s : State} {r : HaltReason} (h : s.run = .halted r) : step s = .fault (.halted r) := by
  simp [step, h]

/-- Settles O41: the step of a halted state is a fault, which is no next state. -/
theorem haltedIsTerminal : Obligations.HaltedIsTerminal := by
  unfold Obligations.HaltedIsTerminal
  intro s r h
  have hstep := step_of_halted h
  exact ⟨fun t hnext => by simp [hstep] at hnext, hstep⟩

/-! ## The count of completed steps -/

/-- Completed or exited with instret one more, or halted by a fault with instret as it was (R19). -/
def CountsInstret (s t : State) : Prop :=
  ((t.run = .running ∨ t.run = .halted .exit) ∧ t.instret = s.instret + 1) ∨
  ∃ r, r ≠ .exit ∧ t.run = .halted r ∧ t.instret = s.instret

theorem State.halt_countsInstret (s : State) {r : HaltReason} (hr : r ≠ .exit) : CountsInstret s (s.halt r) :=
  .inr ⟨r, hr, rfl, rfl⟩

theorem execEcall_countsInstret {s t : State} (hrun : s.run = .running) (h : execEcall s = .next t) :
    CountsInstret s t := by
  obtain ⟨-, v, u, hget, rfl⟩ | ⟨-, rfl⟩ | ⟨-, rfl⟩ | ⟨-, rfl⟩ := execEcall_cases h
  · obtain ⟨rest, rfl, -⟩ := State.hostGetChar_some hget
    exact .inl ⟨.inl hrun, rfl⟩
  · exact .inl ⟨.inl hrun, rfl⟩
  · exact .inl ⟨.inr rfl, rfl⟩
  · exact s.halt_countsInstret (by decide)

theorem exec_countsInstret {i : Instr} {s t : State} (hrun : s.run = .running) (h : exec i s = .next t) :
    CountsInstret s t := by
  obtain ⟨rd, v, p, rfl⟩ | ⟨p, rfl⟩ | ⟨a, n, v, u, -, -, hwrite, rfl⟩ | ⟨a, n, k, -, -, rfl⟩ | ⟨-, hecall⟩ :=
    exec_cases h
  · exact .inl ⟨.inl hrun, rfl⟩
  · exact .inl ⟨.inl hrun, rfl⟩
  · obtain ⟨-, rfl⟩ := (s.memWrite_eq_some_iff a n v u).1 hwrite
    exact .inl ⟨.inl hrun, rfl⟩
  · exact s.halt_countsInstret (by decide)
  · exact execEcall_countsInstret hrun hecall

theorem step_countsInstret {s t : State} (h : step s = .next t) : CountsInstret s t := by
  obtain ⟨hrun, ⟨-, rfl⟩ | ⟨-, -, rfl⟩ | ⟨-, -, -, rfl⟩ | ⟨-, -, w, e, -, -, rfl⟩ | ⟨-, -, w, i, -, -, hexec⟩⟩ :=
    step_cases h
  case inr.inr.inr.inr => exact exec_countsInstret hrun hexec
  all_goals exact s.halt_countsInstret (by simp)

/-! ## Registers after a write -/

theorem State.readReg_writeReg_of_ne (s : State) {q r : RegIdx} (v : Word) (h : r ≠ q) :
    (s.writeReg q v).readReg r = s.readReg r := by
  rw [State.readReg_writeReg, if_neg h]
  split
  · next h0 => rw [h0, State.readReg_zero]
  · rfl

theorem State.readReg_writeReg_congr {s u : State} {r : RegIdx} (h : u.readReg r = s.readReg r) (rd : RegIdx)
    (v : Word) :
    (u.writeReg rd v).readReg r = (s.writeReg rd v).readReg r := by
  simp only [State.readReg_writeReg, h]

theorem State.readReg_writeReg_same (s u : State) (r : RegIdx) (v : Word) :
    (u.writeReg r v).readReg r = (s.writeReg r v).readReg r := by
  simp only [State.readReg_writeReg, if_true]

/-! ## The effect of an instruction -/

/-- What an instruction does to the state it runs in, its operands and addresses already evaluated. -/
inductive Effect where
  /-- Completes with a register write. -/
  | write (rd : RegIdx) (v nextPc : Word)
  /-- Completes with no register write. -/
  | move (nextPc : Word)
  /-- Completes with bytes stored from an address on. -/
  | store (addr : Word) (bytes : List Byte) (nextPc : Word)
  /-- Completes with a host value in x10 and the rest of the input stream left. -/
  | getChar (v : Word) (rest : List HostValue) (nextPc : Word)
  /-- Completes with a byte appended to the output stream. -/
  | putChar (b : Byte) (nextPc : Word)
  /-- Halts by a fault. -/
  | halt (reason : HaltReason)
  /-- Halts by the clean exit. -/
  | exit
  /-- Waits for input. -/
  | block

/-- The outcome of an effect, by the operations the instructions commit with. -/
def Effect.apply : Effect → State → Host.Outcome State Fault Refusal
  | .write rd v p, s => .next (s.commit rd v p)
  | .move p, s => .next (s.retire p)
  | .store a bytes p, s => .next (State.retire { s with mem := Memory.writeBytes s.mem a bytes } p)
  | .getChar v rest p, s => .next (State.commit { s with hostIn := rest } 10 v p)
  | .putChar b p, s => .next ((s.hostPutChar b).retire p)
  | .halt r, s => .next (s.halt r)
  | .exit, s => .next s.haltExit
  | .block, _ => .fault .inputBlocked

/-- The register the effect writes. -/
def Effect.dest : Effect → Option RegIdx
  | .write rd _ _ => some rd
  | .getChar _ _ _ => some 10
  | .move _ | .store _ _ _ | .putChar _ _ | .halt _ | .exit | .block => none

/-- The effect counts in instret: it completes, or is the exit (R19). -/
def Effect.counts : Effect → Bool
  | .halt _ | .block => false
  | .write _ _ _ | .move _ | .store _ _ _ | .getChar _ _ _ | .putChar _ _ | .exit => true

/-- Two states an instruction with these source registers cannot tell apart: the run state, instret, the budget,
the output stream and every other register may differ. -/
structure AgreesOn (sources : List RegIdx) (s s' : State) : Prop where
  regs : ∀ r ∈ sources, s'.readReg r = s.readReg r
  pc : s'.pc = s.pc
  mem : s'.mem = s.mem
  memRules : s'.memRules = s.memRules
  hostIn : s'.hostIn = s.hostIn
  hostInEnded : s'.hostInEnded = s.hostInEnded
  getcharEof : s'.getcharEof = s.getcharEof

/-- In every state that agrees with s on the sources, f has one and the same effect, and unless that is a fault or a wait
it writes the register dest. -/
def ActsOn (f : State → Host.Outcome State Fault Refusal) (sources : List RegIdx) (dest : Option RegIdx)
    (s : State) : Prop :=
  ∃ e : Effect, (∀ s', AgreesOn sources s s' → f s' = e.apply s') ∧ (e.counts = true → e.dest = dest)

theorem AgreesOn.memFault_eq {l : List RegIdx} {s s' : State} (h : AgreesOn l s s') (a : Word) (n : Nat)
    (k : AccessKind) : s'.memFault a n k = s.memFault a n k := by
  simp only [State.memFault, h.mem, h.memRules]

theorem AgreesOn.memRead_eq {l : List RegIdx} {s s' : State} (h : AgreesOn l s s') (a : Word) (n : Nat)
    (k : AccessKind) : s'.memRead a n k = s.memRead a n k := by
  simp only [State.memRead, h.memFault_eq, h.mem]

section Templates

variable (rd rs1 rs2 : RegIdx) (imm : Word) (s : State)

theorem aluReg_actsOn (fn : AluFn) : ActsOn (aluReg fn rd rs1 rs2) [rs1, rs2] (some rd) s :=
  ⟨.write rd (alu fn (s.readReg rs1) (s.readReg rs2)) (candidatePc s.pc),
    fun s' h => by simp [aluReg, Effect.apply, h.regs, h.pc], fun _ => rfl⟩

theorem aluImm_actsOn (fn : AluFn) : ActsOn (aluImm fn rd rs1 imm) [rs1] (some rd) s :=
  ⟨.write rd (alu fn (s.readReg rs1) imm) (candidatePc s.pc),
    fun s' h => by simp [aluImm, Effect.apply, h.regs, h.pc], fun _ => rfl⟩

theorem branchOn_actsOn (c : Condition) : ActsOn (branchOn c rs1 rs2 imm) [rs1, rs2] none s :=
  ⟨.move (if c.holds (s.readReg rs1) (s.readReg rs2) then branchTarget s.pc imm else candidatePc s.pc),
    fun s' h => by simp [branchOn, Effect.apply, h.regs, h.pc], fun _ => rfl⟩

theorem loadWith_actsOn (n : Nat) (ext : Word → Word) : ActsOn (loadWith n ext rd rs1 imm) [rs1] (some rd) s := by
  cases hread : s.memRead (effectiveAddress (s.readReg rs1) imm) n .load with
  | none =>
    exact ⟨.halt .memoryFault, fun s' h => by simp [loadWith, Effect.apply, h.regs, h.memRead_eq, hread], nofun⟩
  | some v =>
    exact ⟨.write rd (ext v) (candidatePc s.pc),
      fun s' h => by simp [loadWith, Effect.apply, h.regs, h.pc, h.memRead_eq, hread], fun _ => rfl⟩

theorem storeWith_actsOn (n : Nat) : ActsOn (storeWith n rs1 rs2 imm) [rs1, rs2] none s := by
  cases hfault : s.memFault (effectiveAddress (s.readReg rs1) imm) n .store with
  | true =>
    exact ⟨.halt .memoryFault,
      fun s' h => by simp [storeWith, State.memWrite, Effect.apply, h.regs, h.memFault_eq, hfault], nofun⟩
  | false =>
    exact ⟨.store (effectiveAddress (s.readReg rs1) imm) (leBytes n (s.readReg rs2)) (candidatePc s.pc),
      fun s' h => by simp [storeWith, State.memWrite, Effect.apply, h.regs, h.pc, h.memFault_eq, hfault],
      fun _ => rfl⟩

theorem execJal_actsOn : ActsOn (execJal rd imm) [] (some rd) s :=
  ⟨.write rd (candidatePc s.pc) (branchTarget s.pc imm), fun s' h => by simp [execJal, Effect.apply, h.pc], fun _ => rfl⟩

theorem execJalr_actsOn : ActsOn (execJalr rd rs1 imm) [rs1] (some rd) s :=
  ⟨.write rd (candidatePc s.pc) (jalrTarget (s.readReg rs1) imm),
    fun s' h => by simp [execJalr, Effect.apply, h.regs, h.pc], fun _ => rfl⟩

theorem execLui_actsOn : ActsOn (execLui rd imm) [] (some rd) s :=
  ⟨.write rd imm (candidatePc s.pc), fun s' h => by simp [execLui, Effect.apply, h.pc], fun _ => rfl⟩

theorem execAuipc_actsOn : ActsOn (execAuipc rd imm) [] (some rd) s :=
  ⟨.write rd (s.pc + imm) (candidatePc s.pc), fun s' h => by simp [execAuipc, Effect.apply, h.pc], fun _ => rfl⟩

theorem ecallGetChar_actsOn (l : List RegIdx) : ActsOn ecallGetChar l (some 10) s := by
  obtain ⟨v, rest, hin, -⟩ | ⟨hin, hended, -⟩ | ⟨hin, hended, -⟩ := s.hostGetChar_cases
  · exact ⟨.getChar v.delivered rest (candidatePc s.pc),
      fun s' h => by simp [ecallGetChar, State.hostGetChar, Effect.apply, h.hostIn, h.pc, hin], fun _ => rfl⟩
  · refine ⟨.getChar s.getcharEof s.hostIn (candidatePc s.pc), fun s' h => ?_, fun _ => rfl⟩
    have hget : s'.hostGetChar = some (s.getcharEof, s') := by
      simp [State.hostGetChar, h.hostIn, h.hostInEnded, h.getcharEof, hin, hended]
    simp [ecallGetChar, hget, Effect.apply, ← h.hostIn, ← h.pc]
  · exact ⟨.block,
      fun s' h => by simp [ecallGetChar, State.hostGetChar, Effect.apply, h.hostIn, h.hostInEnded, hin, hended],
      nofun⟩

theorem execEcall_actsOn : ActsOn execEcall [17, 10] (if s.readReg 17 = 1#32 then some 10 else none) s := by
  by_cases h1 : s.readReg 17 = 1#32
  · obtain ⟨e, he, hdest⟩ := ecallGetChar_actsOn s [17, 10]
    exact ⟨e, fun s' h => by simp [execEcall, h.regs, h1, he s' h], by simpa [h1] using hdest⟩
  by_cases h2 : s.readReg 17 = 2#32
  · exact ⟨.putChar (extract (s.readReg 10) 0 8) (candidatePc s.pc),
      fun s' h => by simp [execEcall, ecallPutChar, Effect.apply, h.regs, h.pc, h2], by simp [h2, Effect.dest]⟩
  by_cases h3 : s.readReg 17 = 3#32 ∨ s.readReg 17 = 93#32
  · exact ⟨.exit, fun s' h => by simp [execEcall, Effect.apply, h.regs, h1, h2, h3], by simp [h1, Effect.dest]⟩
  · exact ⟨.halt .unsupportedSyscall, fun s' h => by simp [execEcall, Effect.apply, h.regs, h1, h2, h3], nofun⟩

end Templates

/-- The register an instruction writes if it completes; ECALL writes x10 by code 1 alone (R192). -/
def destIn (i : Instr) (s : State) : Option RegIdx :=
  match i with
  | .add rd _ _ | .sub rd _ _ | .sll rd _ _ | .slt rd _ _ | .sltu rd _ _ | .xor rd _ _ | .srl rd _ _ | .sra rd _ _
  | .or rd _ _ | .and rd _ _ | .addi rd _ _ | .slti rd _ _ | .sltiu rd _ _ | .xori rd _ _ | .ori rd _ _ | .andi rd _ _
  | .slli rd _ _ | .srli rd _ _ | .srai rd _ _ | .lb rd _ _ | .lh rd _ _ | .lw rd _ _ | .lbu rd _ _ | .lhu rd _ _
  | .jal rd _ | .jalr rd _ _ | .lui rd _ | .auipc rd _ => some rd
  | .sb _ _ _ | .sh _ _ _ | .sw _ _ _ | .beq _ _ _ | .bne _ _ _ | .blt _ _ _ | .bge _ _ _ | .bltu _ _ _
  | .bgeu _ _ _ => none
  | .ecall => if s.readReg 17 = 1#32 then some 10 else none

/-- The register an instruction writes is the rd of its record; stores and branches write none. -/
theorem destIn_of_assemble {op : OperationId} {d : DecodedInstruction} {i : Instr} (h : assemble op d = some i)
    (hi : i ≠ .ecall) (s : State) :
    destIn i s = some (regOf d.rd) ∨
      (destIn i s = none ∧ (op.opcode = 0b0100011#7 ∨ op.opcode = 0b1100011#7)) := by
  cases op <;> cases h
  case ecall => exact absurd rfl hi
  case sb | sh | sw | beq | bne | blt | bge | bltu | bgeu => exact .inr ⟨rfl, by decide⟩
  all_goals exact .inl rfl

/-- Every instruction acts by an effect that its sources determine. -/
theorem exec_actsOn (i : Instr) (s : State) : ActsOn (exec i) i.sources (destIn i s) s := by
  cases i
  case add | sub | sll | slt | sltu | xor | srl | sra | or | and => exact aluReg_actsOn ..
  case addi | slti | sltiu | xori | ori | andi | slli | srli | srai => exact aluImm_actsOn ..
  case lb | lh | lw | lbu | lhu => exact loadWith_actsOn ..
  case sb | sh | sw => exact storeWith_actsOn ..
  case beq | bne | blt | bge | bltu | bgeu => exact branchOn_actsOn ..
  case jal => exact execJal_actsOn ..
  case jalr => exact execJalr_actsOn ..
  case lui => exact execLui_actsOn ..
  case auipc => exact execAuipc_actsOn ..
  case ecall => exact execEcall_actsOn s

/-! ## Effects are blind to instret -/

theorem AgreesOn.refl (l : List RegIdx) (s : State) : AgreesOn l s s := ⟨fun _ _ => rfl, rfl, rfl, rfl, rfl, rfl, rfl⟩

theorem AgreesOn.withInstret (l : List RegIdx) (s : State) (n : Nat) : AgreesOn l s { s with instret := n } :=
  ⟨fun _ _ => rfl, rfl, rfl, rfl, rfl, rfl, rfl⟩

theorem AgreesOn.writeReg {l : List RegIdx} {q : RegIdx} (hq : q ∉ l) (s : State) (v : Word) :
    AgreesOn l s (s.writeReg q v) :=
  ⟨fun _ hr => s.readReg_writeReg_of_ne v fun h => hq (h ▸ hr), rfl, rfl, rfl, rfl, rfl, rfl⟩

theorem Effect.apply_withInstret (e : Effect) (s : State) (n : Nat) :
    (∀ t, e.apply s = .next t → ∃ m, e.apply { s with instret := n } = .next { t with instret := m }) ∧
    (∀ f, e.apply s = .fault f → e.apply { s with instret := n } = .fault f) := by
  cases e
  case block => exact ⟨fun t h => by simp [Effect.apply] at h, fun f h => h⟩
  all_goals exact ⟨by rintro t ⟨⟩; exact ⟨_, rfl⟩, fun f h => by simp [Effect.apply] at h⟩

/-- Settles O43: the cases of a step give the count, and an effect, which its sources determine, is blind to it. -/
theorem instretCountsAndIsUnreadable : Obligations.InstretCountsAndIsUnreadable := by
  unfold Obligations.InstretCountsAndIsUnreadable
  refine ⟨fun _ => rfl, fun s t h => ?_, fun i s n => ?_⟩
  · obtain ⟨hrun, hcount⟩ | ⟨r, hr, hrun, hcount⟩ := step_countsInstret h
    · exact ⟨fun _ => hcount, fun r hr hhalt => by simp [hhalt, hr] at hrun⟩
    · exact ⟨fun hok => by simp [hrun, hr] at hok, fun _ _ _ => hcount⟩
  · obtain ⟨e, he, -⟩ := exec_actsOn i s
    rw [he s (.refl _ s), he _ (.withInstret _ s n)]
    exact e.apply_withInstret s n

/-! ## The one register an instruction writes -/

/-- An effect changes no register but its own. -/
theorem Effect.readReg_apply {e : Effect} {s t : State} (h : e.apply s = .next t) {r : RegIdx} (hr : e.dest ≠ some r) :
    t.readReg r = s.readReg r := by
  cases e <;> cases h
  case write rd v p => exact State.readReg_writeReg_of_ne _ _ fun h => hr (congrArg some h.symm)
  case getChar v rest p =>
    exact State.readReg_writeReg_of_ne { s with hostIn := rest } v fun h => hr (congrArg some h.symm)
  all_goals rfl

theorem Effect.counts_of_dest {e : Effect} {r : RegIdx} (h : e.dest = some r) : e.counts = true := by
  cases e <;> simp_all [Effect.counts, Effect.dest]

theorem Effect.counts_of_instret {e : Effect} {s t : State} (h : e.apply s = .next t)
    (hcount : t.instret = s.instret + 1) : e.counts = true := by
  cases e <;> cases h
  case halt => simp at hcount
  all_goals rfl

/-- The register a decoded instruction writes is its word's rd; one that writes none has x0 in that place. -/
theorem destIn_of_decodeInstr {w : Word} {i : Instr} (h : decodeInstr w = .ok i) (hi : i ≠ .ecall) (s : State) :
    destIn i s = some (regOf (decode w).rd) ∨ (destIn i s = none ∧ regOf (decode w).rd = 0) := by
  have hasm := (decodeInstr_eq_ok_iff w i).1 h
  obtain hdest | ⟨hdest, hopcode⟩ := destIn_of_assemble hasm hi s
  · exact .inl hdest
  · rw [mnemonic_opcode_of_assemble hasm, decode_opcode] at hopcode
    exact .inr ⟨hdest, by rw [decode_rd_eq_zero hopcode]; rfl⟩

theorem exec_readReg_of_ne_dest {i : Instr} {s t : State} (h : exec i s = .next t) {r : RegIdx}
    (hr : destIn i s ≠ some r) : t.readReg r = s.readReg r := by
  obtain ⟨e, he, hdest⟩ := exec_actsOn i s
  rw [he s (.refl _ s)] at h
  exact Effect.readReg_apply h fun her => hr (hdest (Effect.counts_of_dest her) ▸ her)

/-- Settles O46: an effect writes no register but the rd of the decoded record, and x10 for ECALL's code 1. -/
theorem onlyTheDestinationRegisterChanges : Obligations.OnlyTheDestinationRegisterChanges := by
  unfold Obligations.OnlyTheDestinationRegisterChanges
  intro w i s t hdecode hexec r hrd hx10
  refine exec_readReg_of_ne_dest hexec fun hdest => ?_
  by_cases hi : i = .ecall
  · subst hi
    obtain ⟨hcode, hr⟩ : s.readReg 17 = 1#32 ∧ 10 = r := by simpa [destIn] using hdest
    exact hx10 rfl hcode hr.symm
  · obtain h | ⟨h, -⟩ := destIn_of_decodeInstr hdecode hi s
    · exact hrd hi (Option.some.inj (hdest.symm.trans h))
    · simp [h] at hdest

/-! ## Noninterference of the registers -/

/-- The states are the same but for the register q. -/
structure DiffersOnlyAt (q : RegIdx) (t u : State) : Prop where
  regs : ∀ r, r ≠ q → u.readReg r = t.readReg r
  pc : u.pc = t.pc
  run : u.run = t.run
  instret : u.instret = t.instret
  bytes : SameBytes t u
  hostIn : u.hostIn = t.hostIn
  hostOut : u.hostOut = t.hostOut
  args : SameArguments t u

theorem State.commit_writeReg_differsOnlyAt (s : State) (q : RegIdx) (v : Word) (rd : RegIdx) (x p : Word) :
    DiffersOnlyAt q (s.commit rd x p) ((s.writeReg q v).commit rd x p) :=
  ⟨fun _ hr => State.readReg_writeReg_congr (s.readReg_writeReg_of_ne v hr) rd x, rfl, rfl, rfl, fun _ => rfl, rfl, rfl,
    ⟨rfl, rfl, rfl, rfl⟩⟩

/-- An effect on states that differ at q gives states that differ at q, and not even there if it writes q. -/
theorem Effect.apply_writeReg {e : Effect} {s t : State} (h : e.apply s = .next t) (q : RegIdx) (v : Word) :
    ∃ u, e.apply (s.writeReg q v) = .next u ∧ DiffersOnlyAt q t u ∧ (e.dest = some q → u.readReg q = t.readReg q) := by
  cases e <;> cases h
  case write rd x p =>
    refine ⟨_, rfl, s.commit_writeReg_differsOnlyAt q v rd x p, ?_⟩
    rintro ⟨⟩
    exact State.readReg_writeReg_same s _ q x
  case getChar x rest p =>
    refine ⟨_, rfl, State.commit_writeReg_differsOnlyAt { s with hostIn := rest } q v 10 x p, ?_⟩
    rintro ⟨⟩
    exact State.readReg_writeReg_same { s with hostIn := rest } _ 10 x
  all_goals
    exact ⟨_, rfl, ⟨fun r hr => s.readReg_writeReg_of_ne v hr, rfl, rfl, rfl, fun _ => rfl, rfl, rfl,
      ⟨rfl, rfl, rfl, rfl⟩⟩, nofun⟩

/-- No source of a decoded instruction is a register that is neither rs1 nor rs2 of its word. -/
theorem not_mem_sources_of_decodeInstr {w : Word} {i : Instr} {q : RegIdx} (h : decodeInstr w = .ok i)
    (hword : i ≠ .ecall → q ≠ regOf (decode w).rs1 ∧ q ≠ regOf (decode w).rs2)
    (hecall : i = .ecall → q ≠ 17 ∧ q ≠ 10) : q ∉ i.sources := by
  by_cases hi : i = .ecall
  · subst hi
    simpa [Instr.sources] using hecall rfl
  · obtain ⟨h1, h2⟩ := hword hi
    exact fun hq => (mem_sources_of_assemble ((decodeInstr_eq_ok_iff w i).1 h) hi hq).elim h1 h2

/-- Settles O47: the sources determine the effect, and the effect then runs in two states that differ at q alone. -/
theorem instructionsReadOnlyTheirSources : Obligations.InstructionsReadOnlyTheirSources := by
  unfold Obligations.InstructionsReadOnlyTheirSources
  intro w i s t q v hdecode hword hecall hexec
  obtain ⟨e, he, hdest⟩ := exec_actsOn i s
  rw [he s (.refl _ s)] at hexec
  obtain ⟨u, hu, ⟨hregs, hpc, hrun, hinstret, hbytes, hin, hout, hargs⟩, hsame⟩ := Effect.apply_writeReg hexec q v
  have hsource := not_mem_sources_of_decodeInstr hdecode hword hecall
  refine ⟨u, (he _ (.writeReg hsource s v)).trans hu, hregs, hpc, hrun, hinstret, hbytes, hin, hout, hargs, ?_⟩
  intro hi hrd h0 hcount
  refine hsame ((hdest (Effect.counts_of_instret hexec hcount)).trans ?_)
  obtain hd | ⟨-, hzero⟩ := destIn_of_decodeInstr hdecode hi s
  · rw [hd, hrd]
  · exact absurd (hrd.trans hzero) h0

/-! ## The parity of the pc -/

/-- Where an instruction leaves the pc: at itself when it halts, at the next instruction, at its offset, or at a JALR
target. -/
theorem exec_pc_cases {i : Instr} {s t : State} (h : exec i s = .next t) :
    t.pc = s.pc ∨ t.pc = candidatePc s.pc ∨
    (∃ imm, i.pcOffset = some imm ∧ t.pc = branchTarget s.pc imm) ∨ ∃ base imm, t.pc = jalrTarget base imm := by
  cases i
  case ecall =>
    obtain ⟨-, v, u, -, rfl⟩ | ⟨-, rfl⟩ | ⟨-, rfl⟩ | ⟨-, rfl⟩ := execEcall_cases h
    · exact .inr (.inl rfl)
    · exact .inr (.inl rfl)
    · exact .inl rfl
    · exact .inl rfl
  case lb | lh | lw | lbu | lhu =>
    obtain ⟨-, rfl⟩ | ⟨v, -, rfl⟩ := loadWith_cases h
    · exact .inl rfl
    · exact .inr (.inl rfl)
  case sb | sh | sw =>
    obtain ⟨-, rfl⟩ | ⟨u, -, rfl⟩ := storeWith_cases h
    · exact .inl rfl
    · exact .inr (.inl rfl)
  case beq | bne | blt | bge | bltu | bgeu =>
    cases h
    rw [State.retire_pc]
    split
    · exact .inr (.inr (.inl ⟨_, rfl, rfl⟩))
    · exact .inr (.inl rfl)
  case jal => cases h; exact .inr (.inr (.inl ⟨_, rfl, rfl⟩))
  case jalr => cases h; exact .inr (.inr (.inr ⟨_, _, rfl⟩))
  all_goals cases h; exact .inr (.inl rfl)

theorem toNat_add_even {a b : Word} (ha : a.toNat % 2 = 0) (hb : b.toNat % 2 = 0) : (a + b).toNat % 2 = 0 := by
  rw [BitVec.toNat_add]; omega

/-- JALR clears the lowest bit of its target (R173). -/
theorem jalrTarget_even (base imm : Word) : (jalrTarget base imm).toNat % 2 = 0 := by
  rw [toNat_even_iff, jalrTarget, BitVec.getLsbD_and]
  exact Bool.and_false _

theorem exec_pc_even {w : Word} {i : Instr} {s t : State} (hdecode : decodeInstr w = .ok i) (heven : s.pc.toNat % 2 = 0)
    (h : exec i s = .next t) : t.pc.toNat % 2 = 0 := by
  obtain hpc | hpc | ⟨imm, himm, hpc⟩ | ⟨base, imm, hpc⟩ := exec_pc_cases h <;> rw [hpc]
  · exact heven
  · exact toNat_add_even heven (by decide)
  · exact toNat_add_even heven (pcOffset_even_of_decodeInstr hdecode himm)
  · exact jalrTarget_even base imm

/-- Settles O52, by the places an instruction can leave the pc at: all are even if the decoded offset is. -/
theorem stepKeepsThePcEven : Obligations.StepKeepsThePcEven := by
  unfold Obligations.StepKeepsThePcEven
  intro s t heven h
  obtain ⟨-, ⟨-, rfl⟩ | ⟨-, -, rfl⟩ | ⟨-, -, -, rfl⟩ | ⟨-, -, w, e, -, -, rfl⟩ | ⟨-, -, w, i, -, hdecode, hexec⟩⟩ :=
    step_cases h
  case inr.inr.inr.inr => exact exec_pc_even hdecode heven hexec
  all_goals exact heven

end Sys2Proof.Machine
end

section
/-! PROOF. Family 20_memory: the canonical form of the memory, what uses it, which accesses it refuses, and reads of
every width after a write (spec/20_memory.md R30 to R36, R44). -/

namespace Sys2Proof.Machine

/-! ## What an instruction does to the memory -/

theorem execEcall_mem {s t : State} (h : execEcall s = .next t) : t.mem = s.mem := by
  obtain ⟨-, v, u, hget, rfl⟩ | ⟨-, rfl⟩ | ⟨-, rfl⟩ | ⟨-, rfl⟩ := execEcall_cases h
  · obtain ⟨rest, rfl, -⟩ := State.hostGetChar_some hget
    rfl
  all_goals rfl

/-- An instruction leaves the memory as it is, or writes bytes at the address of its own store access. -/
theorem exec_mem_cases {i : Instr} {s t : State} (h : exec i s = .next t) :
    t.mem = s.mem ∨
      ∃ a n bs, dataAccess i s = some (a, n, .store) ∧ t.mem = Memory.writeBytes s.mem a bs := by
  obtain ⟨rd, v, p, rfl⟩ | ⟨p, rfl⟩ | ⟨a, n, v, u, -, haccess, hwrite, rfl⟩ | ⟨a, n, k, -, -, rfl⟩ | ⟨-, hecall⟩ :=
    exec_cases h
  · exact .inl rfl
  · exact .inl rfl
  · obtain ⟨-, rfl⟩ := (s.memWrite_eq_some_iff a n v u).1 hwrite
    exact .inr ⟨a, n, leBytes n v, haccess, rfl⟩
  · exact .inl rfl
  · exact .inl (execEcall_mem hecall)

/-! ## The canonical form -/

theorem exec_keepsWf {i : Instr} {s t : State} (hwf : Memory.wf s.mem = true) (h : exec i s = .next t) :
    Memory.wf t.mem = true := by
  obtain hmem | ⟨a, n, bs, -, hmem⟩ := exec_mem_cases h <;> rw [hmem]
  · exact hwf
  · exact Memory.wf_writeBytes a bs hwf

/-- Settles O49, by the cases of a step: a halt keeps the memory, and an instruction writes at most bytes at 32-bit
addresses. -/
theorem stepKeepsTheMemoryCanonical : Obligations.StepKeepsTheMemoryCanonical := by
  unfold Obligations.StepKeepsTheMemoryCanonical
  intro s t hwf h
  obtain ⟨-, ⟨-, rfl⟩ | ⟨-, -, rfl⟩ | ⟨-, -, -, rfl⟩ | ⟨-, -, w, e, -, -, rfl⟩ | ⟨-, -, w, i, -, -, hexec⟩⟩ :=
    step_cases h
  case inr.inr.inr.inr => exact exec_keepsWf hwf hexec
  all_goals exact hwf

/-- Rising lists with the same reads agree: the lower of two different heads would be listed in one of them only. -/
theorem Memory.eq_of_risingFrom {m n : Memory} {lo : Nat} (hm : Memory.risingFrom lo m = true)
    (hn : Memory.risingFrom lo n = true)
    (h : ∀ a < Config.addressCount, Memory.readByte m a = Memory.readByte n a) : m = n := by
  induction m generalizing n lo with
  | nil =>
    cases n with
    | nil => rfl
    | cons e n =>
      obtain ⟨k, v⟩ := e
      simp only [Memory.risingFrom, Bool.and_eq_true, decide_eq_true_eq] at hn
      simpa [Memory.readByte] using h k hn.1.2
  | cons e m ih =>
    obtain ⟨k, v⟩ := e
    simp only [Memory.risingFrom, Bool.and_eq_true, decide_eq_true_eq] at hm
    obtain ⟨⟨-, hk⟩, hm⟩ := hm
    cases n with
    | nil => simpa [Memory.readByte] using h k hk
    | cons e n =>
      obtain ⟨k', v'⟩ := e
      simp only [Memory.risingFrom, Bool.and_eq_true, decide_eq_true_eq] at hn
      obtain ⟨⟨-, hk'⟩, hn⟩ := hn
      have hmk : ∀ a ≤ k, Memory.readByte m a = none := fun a ha => Memory.readByte_below hm (by omega)
      have hnk : ∀ a ≤ k', Memory.readByte n a = none := fun a ha => Memory.readByte_below hn (by omega)
      obtain hlt | rfl | hlt := Nat.lt_trichotomy k k'
      · simpa [Memory.readByte, hlt.ne, hnk k hlt.le] using h k hk
      · obtain rfl : v = v' := by simpa [Memory.readByte] using h k hk
        rw [ih hm hn fun a ha => ?_]
        by_cases hak : a = k
        · rw [hak, hmk k le_rfl, hnk k le_rfl]
        · simpa [Memory.readByte, hak] using h a ha
      · simpa [Memory.readByte, hlt.ne, hmk k' hlt.le] using h k' hk'

/-- Settles O56, by induction on the two lists from a common lower bound. -/
theorem canonicalMemoriesAreEqualWhenTheyReadEqual : Obligations.CanonicalMemoriesAreEqualWhenTheyReadEqual := by
  unfold Obligations.CanonicalMemoriesAreEqualWhenTheyReadEqual
  intro m n hm hn h
  refine Memory.eq_of_risingFrom hm hn fun a ha => ?_
  have hword : (BitVec.ofNat 32 a).toNat = a := Nat.mod_eq_of_lt ha
  rw [← hword, h]

/-! ## Which instructions use the memory -/

theorem State.hostGetChar_withMem {s u : State} {v : Word} (h : s.hostGetChar = some (v, u)) (m : Memory) :
    State.hostGetChar { s with mem := m } = some (v, { u with mem := m }) := by
  obtain ⟨w, rest, hin, hget⟩ | ⟨hin, hended, hget⟩ | ⟨-, -, hget⟩ := s.hostGetChar_cases <;> rw [hget] at h <;> cases h
  · simp [State.hostGetChar, hin]
  · simp [State.hostGetChar, hin, hended]

/-- ECALL runs the same over any memory. -/
theorem execEcall_withMem {s t : State} (h : execEcall s = .next t) (m : Memory) :
    execEcall { s with mem := m } = .next { t with mem := m } := by
  have hreg : ∀ r, State.readReg { s with mem := m } r = s.readReg r := State.readReg_congr rfl
  obtain ⟨hcode, v, u, hget, rfl⟩ | ⟨hcode, rfl⟩ | ⟨hcode, rfl⟩ | ⟨⟨h1, h2, h3, h93⟩, rfl⟩ := execEcall_cases h
  · simp [execEcall, ecallGetChar, hreg, hcode, State.hostGetChar_withMem hget, State.commit, State.writeReg, State.retire]
  · simp [execEcall, ecallPutChar, hreg, hcode, State.hostPutChar, State.retire]
  · obtain hcode | hcode := hcode <;> simp [execEcall, hreg, hcode, State.haltExit, State.halt]
  · simp [execEcall, hreg, h1, h2, h3, h93, State.halt]

/-- An instruction without a data access runs the same over any memory. -/
theorem exec_withMem {i : Instr} {s t : State} (hnone : dataAccess i s = none) (h : exec i s = .next t) (m : Memory) :
    exec i { s with mem := m } = .next { t with mem := m } := by
  cases i
  case lb | lh | lw | lbu | lhu | sb | sh | sw => simp [dataAccess] at hnone
  case ecall => exact execEcall_withMem h m
  all_goals cases h; rfl

/-- An instruction with a data access halts with memory_fault where the memory refuses it (R143, R153), and stays in its
run state where the memory does not. -/
theorem exec_dataAccess_cases {i : Instr} {s t : State} {a : Word} {n : Nat} {k : AccessKind}
    (haccess : dataAccess i s = some (a, n, k)) (h : exec i s = .next t) :
    (s.memFault a n k = true ∧ t.run = .halted .memoryFault) ∨ (s.memFault a n k = false ∧ t.run = s.run) := by
  cases i
  case lb | lh | lw | lbu | lhu =>
    cases haccess
    obtain ⟨hfault, rfl⟩ | ⟨v, hread, rfl⟩ := loadWith_cases h
    · exact .inl ⟨hfault, rfl⟩
    · exact .inr ⟨((s.memRead_eq_some_iff _ _ _ v).1 hread).1, rfl⟩
  case sb | sh | sw =>
    cases haccess
    obtain ⟨hfault, rfl⟩ | ⟨u, hwrite, rfl⟩ := storeWith_cases h
    · exact .inl ⟨hfault, rfl⟩
    · obtain ⟨hfault, rfl⟩ := (s.memWrite_eq_some_iff _ _ _ u).1 hwrite
      exact .inr ⟨hfault, rfl⟩
  all_goals cases haccess

/-- Settles O45: the only write is at the instruction's store access, an instruction without access runs over any memory,
and one with an access faults where it is refused. -/
theorem onlyLoadsAndStoresUseMemory : Obligations.OnlyLoadsAndStoresUseMemory := by
  unfold Obligations.OnlyLoadsAndStoresUseMemory
  intro i s t h
  refine ⟨fun hnostore => ?_, fun hnone m => exec_withMem hnone h m, fun hrun a n k haccess => ?_⟩
  · obtain hmem | ⟨a, n, bs, haccess, -⟩ := exec_mem_cases h
    · exact State.byteAt_congr hmem
    · exact absurd haccess (hnostore a n)
  · obtain ⟨hfault, ht⟩ | ⟨hfault, ht⟩ := exec_dataAccess_cases haccess h
    · simp [hfault, ht]
    · simp [hfault, ht, hrun]

/-! ## Which accesses the memory refuses -/

/-- The bytes of an access are there when each of them is. -/
theorem Memory.exists_bytesAt_iff (m : Memory) (a : Word) (n : Nat) :
    (∃ bs, Memory.bytesAt m a n = some bs) ↔
      ∀ k < n, ∃ b, Memory.readByte m (a + BitVec.ofNat 32 k).toNat = some b := by
  constructor
  · rintro ⟨bs, hbs⟩ k hk
    obtain ⟨hlen, hread⟩ := (Memory.bytesAt_eq_some_iff m a n bs).1 hbs
    exact ⟨bs[k], by rw [hread k hk, List.getElem?_eq_getElem]⟩
  · intro h
    choose b hb using h
    refine ⟨List.ofFn fun k : Fin n => b k k.isLt, (Memory.bytesAt_eq_some_iff m a n _).2 ⟨by simp, fun k hk => ?_⟩⟩
    rw [hb k hk]
    simp [hk]

/-- An access succeeds when each of its bytes is populated and no clause applies to it (R31, D11). -/
theorem State.memFault_eq_false_iff_forall (s : State) (a : Word) (n : Nat) (kind : AccessKind) :
    s.memFault a n kind = false ↔
      (∀ k < n, ∃ b, s.byteAt (a + BitVec.ofNat 32 k) = some b) ∧ ∀ f ∈ s.memRules, f.applies a n kind = false := by
  simp only [State.memFault_eq_false_iff, Memory.exists_bytesAt_iff, State.byteAt, List.any_eq_false, Bool.not_eq_true]

/-- An access fails when one of its bytes is not populated or a clause applies to it (R31, D11). -/
theorem State.memFault_eq_true_iff_exists (s : State) (a : Word) (n : Nat) (kind : AccessKind) :
    s.memFault a n kind = true ↔
      (∃ k < n, s.byteAt (a + BitVec.ofNat 32 k) = none) ∨ ∃ f ∈ s.memRules, f.applies a n kind = true := by
  rw [← Bool.not_eq_false, State.memFault_eq_false_iff_forall, not_and_or]
  simp [← Option.isSome_iff_exists]

/-- What a clause refuses, its range and alignment in numbers (log entry 3). -/
theorem FaultRule.applies_eq_true_iff (f : FaultRule) (a : Word) (n : Nat) (kind : AccessKind) :
    f.applies a n kind = true ↔
      f.kind = kind ∧ f.bytes = n ∧ f.first.toNat ≤ a.toNat ∧ a.toNat ≤ f.last.toNat ∧
        (f.misalignedOnly = true → a.toNat % n ≠ 0) := by
  cases hm : f.misalignedOnly <;> simp [FaultRule.applies, hm, BitVec.le_def, and_assoc]

/-- Settles O57: a success needs every byte and no clause, and a missing byte or a clause that applies is a failure. -/
theorem memFaultIsUnpopulatedOrRefused : Obligations.MemFaultIsUnpopulatedOrRefused := by
  unfold Obligations.MemFaultIsUnpopulatedOrRefused
  intro s a n kind
  have hfails := (s.memFault_eq_true_iff_exists a n kind).2
  exact ⟨fun hbytes hrules => (s.memFault_eq_false_iff_forall a n kind).2 ⟨hbytes, hrules⟩,
    fun k hk hnone => hfails (.inl ⟨k, hk, hnone⟩), fun f hf happlies => hfails (.inr ⟨f, hf, happlies⟩),
    fun f => f.applies_eq_true_iff a n kind⟩

/-! ## Reads after a write -/

/-- Splitting a value into bytes and joining them gives its low bits, zero-extended. -/
theorem leWord_leBytes (n : Nat) (v : Word) : leWord (leBytes n v) = (v.extractLsb' 0 (8 * n)).setWidth 32 := by
  induction n generalizing v with
  | zero => simp [leBytes, leWord]
  | succ n ih =>
    rw [leBytes, leWord, ih]
    ext i hi
    simp only [BitVec.getElem_or, BitVec.getElem_setWidth, BitVec.getElem_shiftLeft, BitVec.getLsbD_extractLsb',
      BitVec.getLsbD_ushiftRight]
    by_cases hlow : i < 8
    · simp [hlow, show i < 8 * (n + 1) by omega]
    · simp [hlow, show 8 + (i - 8) = i by omega, show i - 8 < 8 * n ↔ i < 8 * (n + 1) by omega]

/-- The bytes inside a write are those of the value, from the same offset on. -/
theorem State.bytesAt_of_memWrite {s t : State} {a v : Word} {m : Nat} (hm : m ≤ 4) (h : s.memWrite a m v = some t)
    {j n : Nat} (hj : j + n ≤ m) :
    Memory.bytesAt t.mem (a + BitVec.ofNat 32 j) n = some (leBytes n (v >>> (8 * j))) := by
  obtain ⟨-, rfl⟩ := (s.memWrite_eq_some_iff a m v t).1 h
  refine (Memory.bytesAt_eq_some_iff _ _ _ _).2 ⟨leBytes_length _ _, fun k hk => ?_⟩
  rw [BitVec.add_assoc, ← BitVec.ofNat_add,
    Memory.readByte_writeBytes_at _ _ _ (by simp; omega) _ (by simp; omega),
    leBytes_getElem? _ _ _ (by omega), leBytes_getElem? _ _ _ hk]
  congr 1
  ext i hi
  simp [Nat.mul_add, Nat.add_assoc]

/-- A read inside a write, if the memory does not refuse it, gives those bits of the value (R33 to R35). -/
theorem State.memRead_of_memWrite {s t : State} {a v : Word} {m : Nat} (hm : m ≤ 4) (h : s.memWrite a m v = some t)
    {j n : Nat} (hj : j + n ≤ m) {kind : AccessKind} (hfault : t.memFault (a + BitVec.ofNat 32 j) n kind = false) :
    t.memRead (a + BitVec.ofNat 32 j) n kind = some ((v.extractLsb' (8 * j) (8 * n)).setWidth 32) := by
  refine (t.memRead_eq_some_iff _ _ _ _).2 ⟨hfault, _, State.bytesAt_of_memWrite hm h hj, ?_⟩
  rw [leWord_leBytes]
  ext i hi
  simp

/-- With no clause, the memory refuses no read inside a write. -/
theorem State.memFault_of_memWrite {s t : State} {a v : Word} {m : Nat} (hm : m ≤ 4) (h : s.memWrite a m v = some t)
    (hrules : s.memRules = []) {j n : Nat} (hj : j + n ≤ m) (kind : AccessKind) :
    t.memFault (a + BitVec.ofNat 32 j) n kind = false := by
  have hbytes := State.bytesAt_of_memWrite hm h hj
  obtain ⟨-, rfl⟩ := (s.memWrite_eq_some_iff a m v t).1 h
  exact (State.memFault_eq_false_iff _ _ _ _).2 ⟨⟨_, hbytes⟩, by simp [hrules]⟩

/-- Settles O54: each read is one of `n` bytes at offset `j` inside the four-byte write. -/
theorem mixedWidthReadsSeeTheStoredWord : Obligations.MixedWidthReadsSeeTheStoredWord := by
  unfold Obligations.MixedWidthReadsSeeTheStoredWord
  intro s t a v hrules h
  have hread (j n : Nat) (hj : j + n ≤ 4) :
      t.memRead (a + BitVec.ofNat 32 j) n .load = some ((v.extractLsb' (8 * j) (8 * n)).setWidth 32) :=
    State.memRead_of_memWrite le_rfl h hj (State.memFault_of_memWrite le_rfl h hrules hj .load)
  refine ⟨?_, ?_, hread 2 2 (by omega), ?_, hread 1 1 (by omega), hread 3 1 (by omega)⟩
  · simpa using hread 0 4 (by omega)
  · simpa using hread 0 2 (by omega)
  · simpa using hread 0 1 (by omega)

/-! ## A stored word as an instruction -/

theorem candidatePc_aligned {pc : Word} (h : pc.toNat % 4 = 0) : (candidatePc pc).toNat % 4 = 0 := by
  rw [candidatePc, BitVec.toNat_add]
  simp only [BitVec.toNat_ofNat]
  omega

/-- With no halt before execution, a step is the effect of the fetched instruction (R210 to R214). -/
theorem step_eq_exec {s : State} {w : Word} {i : Instr} (hrun : s.run = .running) (hbudget : s.budgetReached = false)
    (hpc : s.pc.toNat % 4 = 0) (hfetch : s.fetch = some w) (hdecode : decodeInstr w = .ok i) : step s = exec i s := by
  simp [step, sequenceStep, runWord, hrun, hbudget, (pcAligned_eq_true_iff s.pc).2 hpc, hfetch, hdecode]

/-- A budget that a completed instruction leaves does not stop the next step (R211). -/
theorem State.budgetReached_eq_false {s : State} (h : ∀ n, s.budget = some n → s.instret < n) :
    s.budgetReached = false := by
  rw [← Bool.not_eq_true, State.budgetReached_eq_true_iff]
  rintro ⟨n, hn, hle⟩
  exact absurd (h n hn) (by omega)

/-- The fetch after a commit is at the pc it commits. -/
theorem State.fetch_retire (s : State) (p : Word) : (s.retire p).fetch = s.memRead p 4 .fetch := rfl

/-- Settles O55: the store leaves the word where the next step fetches, and nothing halts that step before it runs. -/
theorem storedWordIsFetchedByTheNextStep : Obligations.StoredWordIsFetchedByTheNextStep := by
  unfold Obligations.StoredWordIsFetchedByTheNextStep
  intro s t rs1 rs2 imm i hrun hpc hbudget haddr hdecode hexec htrun hfault
  obtain ⟨-, rfl⟩ | ⟨u, hwrite, rfl⟩ := storeWith_cases hexec
  · simp at htrun
  have hfetch : (u.retire (candidatePc s.pc)).fetch = some (s.readReg rs2) := by
    rw [State.fetch_retire]
    rw [effectiveAddress, haddr] at hwrite
    have hread := State.memRead_of_memWrite (j := 0) (n := 4) le_rfl hwrite le_rfl
      (by rw [BitVec.add_zero]; exact hfault)
    simpa [candidatePc] using hread
  obtain ⟨-, rfl⟩ := (s.memWrite_eq_some_iff _ _ _ u).1 hwrite
  exact step_eq_exec hrun (State.budgetReached_eq_false hbudget) (candidatePc_aligned hpc) hfetch hdecode

end Sys2Proof.Machine
end

section
/-! PROOF. Family 30_encoding: the record field by field, the laws of the immediates, decoder and encoder as inverses of
each other, and the resolver as the opcode table (spec/30_encoding.md R53 to R55, R60 to R66, R71 to R82). -/

namespace Sys2Proof

/-! ## The fields of the record -/

theorem decode_rd (w : Word) :
    (decode w).rd = if (decode w).format ∈ [.r, .i, .u, .j] then extract w 7 5 else 0#5 := by
  cases h : classify (extract w 0 7) <;> simp [decode, h]

theorem decode_funct3 (w : Word) :
    (decode w).funct3 = if (decode w).format ∈ [.r, .i, .s, .b] then extract w 12 3 else 0#3 := by
  cases h : classify (extract w 0 7) <;> simp [decode, h]

theorem decode_rs1 (w : Word) :
    (decode w).rs1 = if (decode w).format ∈ [.r, .i, .s, .b] then extract w 15 5 else 0#5 := by
  cases h : classify (extract w 0 7) <;> simp [decode, h]

theorem decode_rs2 (w : Word) :
    (decode w).rs2 = if (decode w).format ∈ [.r, .s, .b] then extract w 20 5 else 0#5 := by
  cases h : classify (extract w 0 7) <;> simp [decode, h]

theorem decode_funct7 (w : Word) :
    (decode w).funct7 = if (decode w).format ∈ [.r, .i] then extract w 25 7 else 0#7 := by
  cases h : classify (extract w 0 7) <;> simp [decode, h]

/-- The immediate a word has under a format (R60 to R64); R and UNKNOWN words have none. -/
def immOf (w : Word) : Format → Word
  | .i => immI w
  | .s => immS w
  | .b => immB w
  | .u => immU w
  | .j => immJ w
  | .r | .unknown => 0#32

theorem decode_imm (w : Word) : (decode w).imm = immOf w (decode w).format := by
  cases h : classify (extract w 0 7) <;> simp [decode, immOf, h]

/-- R53's table, the opcodes of a class as a list. -/
theorem classify_eq (opcode : BitVec 7) :
    classify opcode =
      (if opcode = 0x33#7 then .r
       else if opcode ∈ [0x13#7, 0x03#7, 0x67#7, 0x73#7] then .i
       else if opcode = 0x23#7 then .s
       else if opcode = 0x63#7 then .b
       else if opcode ∈ [0x37#7, 0x17#7] then .u
       else if opcode = 0x6F#7 then .j
       else .unknown) := by
  simp [classify]

theorem sext_eq_signExtend {n : Nat} (v : BitVec n) : sext n v = v.signExtend 32 := by
  rw [sext, BitVec.setWidth_eq]

/-- R63's two spellings of the U immediate. -/
theorem immU_eq_and (w : Word) : immU w = w &&& 0xFFFFF000#32 := by
  apply BitVec.eq_of_getLsbD_eq
  intro i hi
  simp only [immU, extract, BitVec.getLsbD_append, BitVec.getLsbD_extractLsb', BitVec.getLsbD_and]
  interval_cases i <;> simp

/-- Settles O32, field by field: the format is R53's table, a field the format lacks is zero. -/
theorem decoderRecordFollowsTheFormat : Obligations.DecoderRecordFollowsTheFormat := by
  intro w
  refine ⟨decode_raw w, decode_opcode w, ?_, decode_rd w, decode_funct3 w, decode_rs1 w, decode_rs2 w,
    decode_funct7 w, ?_⟩
  · exact (decode_format w).trans (classify_eq _)
  · rw [decode_imm]
    cases (decode w).format
    case u => exact immU_eq_and w
    case r | unknown => rfl
    case i | s | b | j => exact sext_eq_signExtend _

/-! ## The laws of the immediates (R66) -/

/-- Sign extension keeps the low bits. -/
theorem extractLsb'_sext {n start len : Nat} (h : start + len ≤ n) (hn : n ≤ 32) (v : BitVec n) :
    (sext n v).extractLsb' start len = v.extractLsb' start len := by
  ext i hi
  rw [sext_eq_signExtend, BitVec.getElem_extractLsb', BitVec.getElem_extractLsb', BitVec.getLsbD_signExtend,
    if_pos (by omega)]
  simp [show start + i < 32 by omega]

/-- From the sign bit up, a sign extension repeats it. -/
theorem getLsbD_sext_of_le {n k : Nat} (v : BitVec n) (h : n ≤ k + 1) (hk : k < 32) :
    (sext n v).getLsbD k = v.msb := by
  rw [sext_eq_signExtend, BitVec.getLsbD_signExtend]
  split
  · rw [BitVec.msb_eq_getLsbD_last, show n - 1 = k by omega]; simp [hk]
  · simp [hk]

theorem extract_immI (w : Word) : extract (immI w) 0 12 = extract w 20 12 := by
  rw [extract, immI, extractLsb'_sext (by decide) (by decide), BitVec.extractLsb'_eq_self]

theorem extract_immS (w : Word) :
    extract (immS w) 5 7 = extract w 25 7 ∧ extract (immS w) 0 5 = extract w 7 5 := by
  constructor <;> rw [extract, immS, extractLsb'_sext (by decide) (by decide)]
  · exact BitVec.extractLsb'_append_eq_left
  · exact BitVec.extractLsb'_append_eq_right

theorem extract_immB (w : Word) :
    extract (immB w) 12 1 = extract w 31 1 ∧ extract (immB w) 11 1 = extract w 7 1 ∧
    extract (immB w) 5 6 = extract w 25 6 ∧ extract (immB w) 1 4 = extract w 8 4 := by
  refine ⟨?_, ?_, ?_, ?_⟩
  all_goals
    rw [extract, immB, extractLsb'_sext (by decide) (by decide)]
    ext i hi
    simp only [extract, BitVec.getElem_extractLsb', BitVec.getLsbD_append, BitVec.getLsbD_extractLsb']
    interval_cases i <;> simp

theorem extract_immU (w : Word) : extract (immU w) 12 20 = extract w 12 20 := BitVec.extractLsb'_append_eq_left

theorem extract_immJ (w : Word) :
    extract (immJ w) 20 1 = extract w 31 1 ∧ extract (immJ w) 12 8 = extract w 12 8 ∧
    extract (immJ w) 11 1 = extract w 20 1 ∧ extract (immJ w) 1 10 = extract w 21 10 := by
  refine ⟨?_, ?_, ?_, ?_⟩
  all_goals
    rw [extract, immJ, extractLsb'_sext (by decide) (by decide)]
    ext i hi
    simp only [extract, BitVec.getElem_extractLsb', BitVec.getLsbD_append, BitVec.getLsbD_extractLsb']
    interval_cases i <;> simp

/-- A one-bit field is its bit. -/
theorem getLsbD_eq_of_extract_eq {v w : Word} {i j : Nat} {hi hj}
    (h : extract v i 1 hi = extract w j 1 hj) : v.getLsbD i = w.getLsbD j := by
  simpa [extract] using congrArg (·.getLsbD 0) h

theorem getLsbD_immI_of_le (w : Word) {k : Nat} (hle : 11 ≤ k) (hlt : k < 32) : (immI w).getLsbD k = w.getLsbD 31 := by
  rw [immI, getLsbD_sext_of_le _ (by omega) hlt]
  simp [extract, BitVec.msb_eq_getLsbD_last]

theorem getLsbD_immS_of_le (w : Word) {k : Nat} (hle : 11 ≤ k) (hlt : k < 32) : (immS w).getLsbD k = w.getLsbD 31 := by
  rw [immS, getLsbD_sext_of_le _ (by omega) hlt, BitVec.msb_eq_getLsbD_last]
  simp only [extract, BitVec.getLsbD_append, BitVec.getLsbD_extractLsb']
  simp

theorem getLsbD_immB_of_le (w : Word) {k : Nat} (hle : 12 ≤ k) (hlt : k < 32) : (immB w).getLsbD k = w.getLsbD 31 := by
  rw [immB, getLsbD_sext_of_le _ (by omega) hlt, BitVec.msb_eq_getLsbD_last]
  simp only [extract, BitVec.getLsbD_append, BitVec.getLsbD_extractLsb']
  simp

theorem getLsbD_immJ_of_le (w : Word) {k : Nat} (hle : 20 ≤ k) (hlt : k < 32) : (immJ w).getLsbD k = w.getLsbD 31 := by
  rw [immJ, getLsbD_sext_of_le _ (by omega) hlt, BitVec.msb_eq_getLsbD_last]
  simp only [extract, BitVec.getLsbD_append, BitVec.getLsbD_extractLsb']
  simp

/-- Settles O33, format by format: each immediate scatters back to its places and carries its sign. -/
theorem decodedImmediatesRoundTrip : Obligations.DecodedImmediatesRoundTrip := by
  rintro w imm rfl
  rw [decode_imm]
  cases (decode w).format
  case r | unknown => simp
  case i => simpa [immOf] using ⟨extract_immI w, fun k hlt hle => getLsbD_immI_of_le w hle hlt⟩
  case s => simpa [immOf] using ⟨extract_immS w, fun k hlt hle => getLsbD_immS_of_le w hle hlt⟩
  case b =>
    obtain ⟨h12, h11, h5, h1⟩ := extract_immB w
    simpa [immOf] using ⟨⟨getLsbD_eq_of_extract_eq h12, getLsbD_eq_of_extract_eq h11, h5, h1⟩,
      fun k hlt hle => getLsbD_immB_of_le w hle hlt, (toNat_even_iff _).1 (immB_even w)⟩
  case u =>
    simpa [immOf] using ⟨extract_immU w, (BitVec.extractLsb'_append_eq_right : extract (immU w) 0 12 = 0#12)⟩
  case j =>
    obtain ⟨h20, h12, h11, h1⟩ := extract_immJ w
    simpa [immOf] using ⟨⟨getLsbD_eq_of_extract_eq h20, h12, getLsbD_eq_of_extract_eq h11, h1⟩,
      fun k hlt hle => getLsbD_immJ_of_le w hle hlt, (toNat_even_iff _).1 (immJ_even w)⟩

/-! ## Decoding an encoded instruction -/

/-- The record of each layout resolves to the instruction's operation and assembles to its operands. -/
theorem decodeInstr_encode {i : Instr} (h : i.wellFormed = true) : decodeInstr (encode i) = .ok i := by
  rw [decodeInstr_eq_ok_iff]
  cases i with
  | add | sub | sll | slt | sltu | xor | srl | sra | or | and => rw [encode, decode_layoutR rfl]; rfl
  | slli | srli | srai =>
    rw [encode, decode_layoutR_shift rfl]
    simp [mnemonic, resolveImm, assemble, immI_shamt, layoutR_rs2]
  | addi | slti | sltiu | xori | ori | andi | lb | lh | lw | lbu | lhu | jalr => rw [encode, decode_layoutI rfl h]; rfl
  | sb | sh | sw => rw [encode, decode_layoutS rfl h]; rfl
  | beq | bne | blt | bge | bltu | bgeu => rw [encode, decode_layoutB rfl h]; rfl
  | jal => rw [encode, decode_layoutJ rfl h]; rfl
  | lui | auipc => rw [encode, decode_layoutU rfl h]; rfl
  | ecall => decide

/-- Settles O29, by the layouts of the instructions. -/
theorem decodeInvertsEncode : Obligations.DecodeInvertsEncode := fun _ h => decodeInstr_encode h

/-! ## What the resolver tests -/

/-- The funct3 of an operation's words, where R72 to R80 give one. -/
def OperationId.funct3 : OperationId → Option (BitVec 3)
  | .add | .sub | .addi | .lb | .sb | .beq | .jalr => some 0b000#3
  | .sll | .slli | .lh | .sh | .bne => some 0b001#3
  | .slt | .slti | .lw | .sw => some 0b010#3
  | .sltu | .sltiu => some 0b011#3
  | .xor | .xori | .lbu | .blt => some 0b100#3
  | .srl | .sra | .srli | .srai | .lhu | .bge => some 0b101#3
  | .or | .ori | .bltu => some 0b110#3
  | .and | .andi | .bgeu => some 0b111#3
  | .jal | .lui | .auipc | .ecall | .unknown => none

/-- The funct7 of an operation's words, where R72 and R74 give one. -/
def OperationId.funct7 : OperationId → Option (BitVec 7)
  | .add | .sll | .slt | .sltu | .xor | .srl | .or | .and | .slli | .srli => some 0b0000000#7
  | .sub | .sra | .srai => some 0b0100000#7
  | _ => none

/-- The function fields are the operation's, where it has them. -/
def OperationId.HasFunct (op : OperationId) (funct7 : BitVec 7) (funct3 : BitVec 3) : Prop :=
  (∀ f, op.funct3 = some f → funct3 = f) ∧ ∀ f, op.funct7 = some f → funct7 = f

/-! The last funct3 of `resolveReg` and of `resolveImm` is the one that the others leave. -/

theorem resolveReg_hasFunct (f7 : BitVec 7) (f3 : BitVec 3) : (resolveReg f7 f3).HasFunct f7 f3 := by
  unfold resolveReg
  split_ifs <;> simp [OperationId.HasFunct, OperationId.funct3, OperationId.funct7, *]
  bv_omega

theorem resolveImm_hasFunct (f7 : BitVec 7) (f3 : BitVec 3) : (resolveImm f7 f3).HasFunct f7 f3 := by
  unfold resolveImm
  split_ifs <;> simp [OperationId.HasFunct, OperationId.funct3, OperationId.funct7, *] <;> bv_omega

theorem resolveLoad_hasFunct (f7 : BitVec 7) (f3 : BitVec 3) : (resolveLoad f3).HasFunct f7 f3 := by
  unfold resolveLoad
  split_ifs <;> simp [OperationId.HasFunct, OperationId.funct3, OperationId.funct7, *]

theorem resolveStore_hasFunct (f7 : BitVec 7) (f3 : BitVec 3) : (resolveStore f3).HasFunct f7 f3 := by
  unfold resolveStore
  split_ifs <;> simp [OperationId.HasFunct, OperationId.funct3, OperationId.funct7, *]

theorem resolveBranch_hasFunct (f7 : BitVec 7) (f3 : BitVec 3) : (resolveBranch f3).HasFunct f7 f3 := by
  unfold resolveBranch
  split_ifs <;> simp [OperationId.HasFunct, OperationId.funct3, OperationId.funct7, *]

theorem OperationId.HasFunct.ite {c : Prop} [Decidable c] {op op' : OperationId} {f7 : BitVec 7} {f3 : BitVec 3}
    (hpos : c → op.HasFunct f7 f3) (hneg : ¬c → op'.HasFunct f7 f3) : (if c then op else op').HasFunct f7 f3 := by
  split
  case isTrue h => exact hpos h
  case isFalse h => exact hneg h

/-- A record resolves to an operation with its own function fields. -/
theorem mnemonic_hasFunct (d : DecodedInstruction) : (mnemonic d).HasFunct d.funct7 d.funct3 := by
  have hnone {op : OperationId} (h3 : op.funct3 = none) (h7 : op.funct7 = none) : op.HasFunct d.funct7 d.funct3 := by
    simp [OperationId.HasFunct, h3, h7]
  unfold mnemonic
  refine .ite (fun _ => resolveReg_hasFunct _ _) fun _ => ?_
  refine .ite (fun _ => resolveImm_hasFunct _ _) fun _ => ?_
  refine .ite (fun _ => resolveLoad_hasFunct _ _) fun _ => ?_
  refine .ite (fun _ => resolveStore_hasFunct _ _) fun _ => ?_
  refine .ite (fun _ => resolveBranch_hasFunct _ _) fun _ => ?_
  refine .ite (fun _ => hnone rfl rfl) fun _ => ?_
  refine .ite (fun _ => .ite (fun h3 => ?_) fun _ => hnone rfl rfl) fun _ => ?_
  · simp [OperationId.HasFunct, OperationId.funct3, OperationId.funct7, h3]
  refine .ite (fun _ => hnone rfl rfl) fun _ => ?_
  refine .ite (fun _ => hnone rfl rfl) fun _ => ?_
  exact .ite (fun _ => .ite (fun _ => hnone rfl rfl) fun _ => hnone rfl rfl) fun _ => hnone rfl rfl

/-- ECALL is its whole word (R80). -/
theorem raw_of_mnemonic_ecall {d : DecodedInstruction} (h : mnemonic d = .ecall) : d.raw = 0x00000073#32 := by
  have hopcode : d.opcode = 0b1110011#7 := by simpa [h, OperationId.opcode, eq_comm] using mnemonic_opcode d
  simpa [mnemonic, hopcode] using h

/-- What the resolver tests of a record before it answers `op`: the opcode, the function fields `op` has, and for
ECALL the whole word. -/
structure OperationId.Selects (op : OperationId) (d : DecodedInstruction) : Prop where
  opcode : d.opcode = op.opcode
  funct : op.HasFunct d.funct7 d.funct3
  raw : op = .ecall → d.raw = 0x00000073#32

theorem selects_of_mnemonic {op : OperationId} {d : DecodedInstruction} (h : mnemonic d = op) (hop : op ≠ .unknown) :
    op.Selects d := by
  subst h
  exact ⟨((mnemonic_opcode d).resolve_left hop).symm, mnemonic_hasFunct d, raw_of_mnemonic_ecall⟩

theorem mnemonic_of_selects {op : OperationId} {d : DecodedInstruction} (h : op.Selects d) (hop : op ≠ .unknown) :
    mnemonic d = op := by
  obtain ⟨hopcode, ⟨h3, h7⟩, hraw⟩ := h
  cases op
  case unknown => exact absurd rfl hop
  case add | sub | sll | slt | sltu | xor | srl | sra | or | and =>
    simp [mnemonic, resolveReg, show d.opcode = 0b0110011#7 from hopcode, h3 _ rfl, h7 _ rfl]
  case addi | slti | sltiu | xori | ori | andi =>
    simp [mnemonic, resolveImm, show d.opcode = 0b0010011#7 from hopcode, h3 _ rfl]
  case slli | srli | srai =>
    simp [mnemonic, resolveImm, show d.opcode = 0b0010011#7 from hopcode, h3 _ rfl, h7 _ rfl]
  case lb | lh | lw | lbu | lhu =>
    simp [mnemonic, resolveLoad, show d.opcode = 0b0000011#7 from hopcode, h3 _ rfl]
  case sb | sh | sw => simp [mnemonic, resolveStore, show d.opcode = 0b0100011#7 from hopcode, h3 _ rfl]
  case beq | bne | blt | bge | bltu | bgeu =>
    simp [mnemonic, resolveBranch, show d.opcode = 0b1100011#7 from hopcode, h3 _ rfl]
  case jalr => simp [mnemonic, show d.opcode = 0b1100111#7 from hopcode, h3 _ rfl]
  case jal | lui | auipc => simp [mnemonic, hopcode, OperationId.opcode]
  case ecall => simp [mnemonic, hopcode, OperationId.opcode, hraw]

/-- The resolver answers an operation exactly when the record passes its tests. -/
theorem mnemonic_eq_iff {op : OperationId} (hop : op ≠ .unknown) (d : DecodedInstruction) :
    mnemonic d = op ↔ op.Selects d :=
  ⟨fun h => selects_of_mnemonic h hop, fun h => mnemonic_of_selects h hop⟩

/-! ## The opcode table -/

/-- Fields that lie next to each other are one field. -/
theorem extract_append_extract {w : Word} {start₁ len₁ start₂ len₂ : Nat} {h₁ h₂} (h : start₂ = start₁ + len₁) :
    extract w start₂ len₂ h₂ ++ extract w start₁ len₁ h₁ = extract w start₁ (len₂ + len₁) (by omega) :=
  BitVec.extractLsb'_append_extractLsb'_eq_extractLsb' h

theorem extract_all (w : Word) : extract w 0 32 = w := BitVec.extractLsb'_eq_self

/-- A word is the R layout of its fields. -/
theorem layoutR_extract (w : Word) :
    layoutR (extract w 25 7) (extract w 20 5) (extract w 15 5) (extract w 12 3) (extract w 7 5) (extract w 0 7) =
      w := by
  simp only [layoutR, extract_append_extract]
  exact extract_all w

theorem layoutR_inj {f7 f7' : BitVec 7} {rs2 rs2' rs1 rs1' : BitVec 5} {f3 f3' : BitVec 3} {rd rd' : BitVec 5}
    {opcode opcode' : BitVec 7} :
    layoutR f7 rs2 rs1 f3 rd opcode = layoutR f7' rs2' rs1' f3' rd' opcode' ↔
      f7 = f7' ∧ rs2 = rs2' ∧ rs1 = rs1' ∧ f3 = f3' ∧ rd = rd' ∧ opcode = opcode' := by
  refine ⟨fun h => ⟨?_, ?_, ?_, ?_, ?_, ?_⟩, by rintro ⟨rfl, rfl, rfl, rfl, rfl, rfl⟩; rfl⟩
  · simpa only [layoutR_funct7] using congrArg (extract · 25 7) h
  · simpa only [layoutR_rs2] using congrArg (extract · 20 5) h
  · simpa only [layoutR_rs1] using congrArg (extract · 15 5) h
  · simpa only [layoutR_funct3] using congrArg (extract · 12 3) h
  · simpa only [layoutR_rd] using congrArg (extract · 7 5) h
  · simpa only [layoutR_opcode] using congrArg (extract · 0 7) h

/-- Masking works field by field. -/
theorem layoutR_and (f7 m7 : BitVec 7) (rs2 m2 rs1 m1 : BitVec 5) (f3 m3 : BitVec 3) (rd md : BitVec 5)
    (opcode m : BitVec 7) :
    layoutR f7 rs2 rs1 f3 rd opcode &&& layoutR m7 m2 m1 m3 md m =
      layoutR (f7 &&& m7) (rs2 &&& m2) (rs1 &&& m1) (f3 &&& m3) (rd &&& md) (opcode &&& m) := by
  simp only [layoutR]
  rw [BitVec.and_append, BitVec.and_append, BitVec.and_append, BitVec.and_append, BitVec.and_append]

theorem and_layoutR (w : Word) (m7 : BitVec 7) (m2 m1 : BitVec 5) (m3 : BitVec 3) (md : BitVec 5) (m : BitVec 7) :
    w &&& layoutR m7 m2 m1 m3 md m =
      layoutR (extract w 25 7 &&& m7) (extract w 20 5 &&& m2) (extract w 15 5 &&& m1) (extract w 12 3 &&& m3)
        (extract w 7 5 &&& md) (extract w 0 7 &&& m) := by
  conv_lhs => rw [← layoutR_extract w, layoutR_and]

/-- The mask of a function field: all of it where an operation has one, none of it otherwise. -/
def fieldMask {n : Nat} (field : Option (BitVec n)) : BitVec n := if field.isSome then BitVec.allOnes n else 0#n

theorem and_fieldMask_eq_iff {n : Nat} (v : BitVec n) (field : Option (BitVec n)) :
    v &&& fieldMask field = field.getD 0#n ↔ ∀ f, field = some f → v = f := by
  cases field <;> simp [fieldMask]

/-- A row tests what the resolver tests: the opcode and the operation's function fields, and for ECALL every bit. -/
theorem row_tests {row : TableRow} (h : row ∈ opcodeTable) :
    row.op ≠ .unknown ∧
    if row.op = .ecall then row.mask = BitVec.allOnes 32 ∧ row.pattern = 0x00000073#32
    else
      row.mask = layoutR (fieldMask row.op.funct7) 0 0 (fieldMask row.op.funct3) 0 (BitVec.allOnes 7) ∧
      row.pattern = layoutR (row.op.funct7.getD 0#7) 0 0 (row.op.funct3.getD 0#3) 0 row.op.opcode := by
  revert row; decide

theorem exists_row {op : OperationId} (h : op ≠ .unknown) : ∃ row ∈ opcodeTable, row.op = op := by
  revert h; cases op <;> decide

theorem OperationId.format_keeps_funct3 (op : OperationId) :
    op.funct3.isSome → classify op.opcode ∈ [.r, .i, .s, .b] := by cases op <;> decide

theorem OperationId.format_keeps_funct7 (op : OperationId) :
    op.funct7.isSome → classify op.opcode ∈ [.r, .i] := by cases op <;> decide

/-- The record keeps the function fields of an operation that has them. -/
theorem hasFunct_decode_iff {op : OperationId} {w : Word} (h : extract w 0 7 = op.opcode) :
    op.HasFunct (decode w).funct7 (decode w).funct3 ↔ op.HasFunct (extract w 25 7) (extract w 12 3) := by
  refine and_congr (forall₂_congr fun f hf => ?_) (forall₂_congr fun f hf => ?_)
  · rw [decode_funct3, decode_format, h, if_pos (op.format_keeps_funct3 (Option.isSome_of_eq_some hf))]
  · rw [decode_funct7, decode_format, h, if_pos (op.format_keeps_funct7 (Option.isSome_of_eq_some hf))]

/-- The resolver's tests on the record are tests on the word. -/
theorem selects_decode_iff (op : OperationId) (w : Word) :
    op.Selects (decode w) ↔
      extract w 0 7 = op.opcode ∧ op.HasFunct (extract w 25 7) (extract w 12 3) ∧
        (op = .ecall → w = 0x00000073#32) := by
  constructor
  · rintro ⟨hopcode, hf, hraw⟩
    rw [decode_opcode] at hopcode
    exact ⟨hopcode, (hasFunct_decode_iff hopcode).1 hf, by simpa using hraw⟩
  · rintro ⟨hopcode, hf, hraw⟩
    exact ⟨by simpa using hopcode, (hasFunct_decode_iff hopcode).2 hf, by simpa using hraw⟩

/-- An operation's words are those its row admits. -/
theorem mnemonic_eq_op_iff {row : TableRow} (hrow : row ∈ opcodeTable) (w : Word) :
    mnemonic (decode w) = row.op ↔ w &&& row.mask = row.pattern := by
  obtain ⟨hop, htests⟩ := row_tests hrow
  rw [mnemonic_eq_iff hop, selects_decode_iff]
  split at htests
  case isTrue hecall =>
    obtain ⟨hmask, hpattern⟩ := htests
    rw [hmask, hpattern, BitVec.and_allOnes, hecall]
    refine ⟨fun h => h.2.2 rfl, ?_⟩
    rintro rfl
    exact ⟨by decide, ⟨by simp [OperationId.funct3], by simp [OperationId.funct7]⟩, fun _ => rfl⟩
  case isFalse hecall =>
    obtain ⟨hmask, hpattern⟩ := htests
    rw [hmask, hpattern, and_layoutR, layoutR_inj, and_fieldMask_eq_iff, and_fieldMask_eq_iff, BitVec.and_allOnes]
    simp [OperationId.HasFunct, hecall, and_comm, and_assoc]

/-- Settles O31: a row tests what the resolver tests, and every operation has a row. -/
theorem resolverIsTheOpcodeTable : Obligations.ResolverIsTheOpcodeTable := by
  intro w
  refine ⟨fun row hrow => mnemonic_eq_op_iff hrow w, ?_⟩
  rw [decodeInstr_eq_error_iff]
  constructor
  · intro hunknown row hrow hadmits
    rw [← mnemonic_eq_op_iff hrow, hunknown] at hadmits
    exact (row_tests hrow).1 hadmits.symm
  · intro hnone
    by_contra hop
    obtain ⟨row, hrow, heq⟩ := exists_row hop
    exact hnone row hrow ((mnemonic_eq_op_iff hrow w).1 heq.symm)

/-! ## Encoding a decoded word -/

theorem layoutI_extract (w : Word) :
    layoutI (immI w) (extract w 15 5) (extract w 12 3) (extract w 7 5) (extract w 0 7) = w := by
  simp only [layoutI, extract_immI, extract_append_extract]
  exact extract_all w

theorem layoutS_extract (w : Word) :
    layoutS (immS w) (extract w 20 5) (extract w 15 5) (extract w 12 3) (extract w 0 7) = w := by
  obtain ⟨h5, h0⟩ := extract_immS w
  simp only [layoutS, h5, h0, extract_append_extract]
  exact extract_all w

theorem layoutB_extract (w : Word) :
    layoutB (immB w) (extract w 20 5) (extract w 15 5) (extract w 12 3) (extract w 0 7) = w := by
  obtain ⟨h12, h11, h5, h1⟩ := extract_immB w
  simp only [layoutB, h12, h11, h5, h1, extract_append_extract]
  exact extract_all w

theorem layoutU_extract (w : Word) : layoutU (immU w) (extract w 7 5) (extract w 0 7) = w := by
  simp only [layoutU, extract_immU, extract_append_extract]
  exact extract_all w

theorem layoutJ_extract (w : Word) : layoutJ (immJ w) (extract w 7 5) (extract w 0 7) = w := by
  obtain ⟨h20, h12, h11, h1⟩ := extract_immJ w
  simp only [layoutJ, h20, h12, h11, h1, extract_append_extract]
  exact extract_all w

/-- A sign-extended value is in the range of its width. -/
theorem toInt_sext_range {n : Nat} (hn : n ≤ 32) (v : BitVec n) :
    -2 ^ (n - 1) ≤ (sext n v).toInt ∧ (sext n v).toInt < 2 ^ (n - 1) := by
  rw [sext_eq_signExtend, BitVec.toInt_signExtend_of_le hn]
  exact ⟨BitVec.le_toInt v, BitVec.toInt_lt⟩

theorem toInt_even_of_toNat_even {v : Word} (h : v.toNat % 2 = 0) : v.toInt % 2 = 0 := by
  rw [BitVec.toInt_eq_toNat_cond]
  split <;> omega

theorem immFits12_sext (v : BitVec 12) : immFits12 (sext 12 v) = true := by
  obtain ⟨hlo, hhi⟩ := toInt_sext_range (by decide) v
  simp only [immFits12, Bool.and_eq_true, decide_eq_true_eq]
  omega

theorem immFitsBranch_immB (w : Word) : immFitsBranch (immB w) = true := by
  have heven := toInt_even_of_toNat_even (immB_even w)
  have hrange := toInt_sext_range (n := 13) (by decide)
    (extract w 31 1 ++ extract w 7 1 ++ extract w 25 6 ++ extract w 8 4 ++ 0#1)
  simp only [immFitsBranch, Bool.and_eq_true, decide_eq_true_eq]
  rw [immB] at heven ⊢
  omega

theorem immFitsJump_immJ (w : Word) : immFitsJump (immJ w) = true := by
  have heven := toInt_even_of_toNat_even (immJ_even w)
  have hrange := toInt_sext_range (n := 21) (by decide)
    (extract w 31 1 ++ extract w 12 8 ++ extract w 20 1 ++ extract w 21 10 ++ 0#1)
  simp only [immFitsJump, Bool.and_eq_true, decide_eq_true_eq]
  rw [immJ] at heven ⊢
  omega

theorem immFitsUpper_immU (w : Word) : immFitsUpper (immU w) = true := by
  simp only [immFitsUpper, immU, BitVec.toNat_append, Nat.shiftLeft_eq, decide_eq_true_eq]
  simp

/-! A word whose record passes an operation's tests is the layout of the record's fields. -/

section
variable {w : Word} {f7 : BitVec 7} {f3 : BitVec 3} {opcode : BitVec 7}

theorem layoutR_decode (hclass : classify opcode = .r) (hopcode : (decode w).opcode = opcode)
    (h3 : (decode w).funct3 = f3) (h7 : (decode w).funct7 = f7) :
    layoutR f7 (decode w).rs2 (decode w).rs1 f3 (decode w).rd opcode = w := by
  subst hopcode h3 h7
  rw [decode_opcode] at hclass
  simp only [decode, hclass, layoutR_extract]

theorem layoutR_decode_shift (hclass : classify opcode = .i) (hopcode : (decode w).opcode = opcode)
    (h3 : (decode w).funct3 = f3) (h7 : (decode w).funct7 = f7) :
    layoutR f7 (extract (decode w).imm 0 5) (decode w).rs1 f3 (decode w).rd opcode = w := by
  subst hopcode h3 h7
  rw [decode_opcode] at hclass
  simp only [decode, hclass, immI_shamt, layoutR_extract]

theorem layoutI_decode (hclass : classify opcode = .i) (hopcode : (decode w).opcode = opcode)
    (h3 : (decode w).funct3 = f3) :
    immFits12 (decode w).imm = true ∧ layoutI (decode w).imm (decode w).rs1 f3 (decode w).rd opcode = w := by
  subst hopcode h3
  rw [decode_opcode] at hclass
  simp only [decode, hclass, layoutI_extract]
  exact ⟨immFits12_sext _, trivial⟩

theorem layoutS_decode (hclass : classify opcode = .s) (hopcode : (decode w).opcode = opcode)
    (h3 : (decode w).funct3 = f3) :
    immFits12 (decode w).imm = true ∧ layoutS (decode w).imm (decode w).rs2 (decode w).rs1 f3 opcode = w := by
  subst hopcode h3
  rw [decode_opcode] at hclass
  simp only [decode, hclass, layoutS_extract]
  exact ⟨immFits12_sext _, trivial⟩

theorem layoutB_decode (hclass : classify opcode = .b) (hopcode : (decode w).opcode = opcode)
    (h3 : (decode w).funct3 = f3) :
    immFitsBranch (decode w).imm = true ∧ layoutB (decode w).imm (decode w).rs2 (decode w).rs1 f3 opcode = w := by
  subst hopcode h3
  rw [decode_opcode] at hclass
  simp only [decode, hclass, layoutB_extract]
  exact ⟨immFitsBranch_immB w, trivial⟩

theorem layoutU_decode (hclass : classify opcode = .u) (hopcode : (decode w).opcode = opcode) :
    immFitsUpper (decode w).imm = true ∧ layoutU (decode w).imm (decode w).rd opcode = w := by
  subst hopcode
  rw [decode_opcode] at hclass
  simp only [decode, hclass, layoutU_extract]
  exact ⟨immFitsUpper_immU w, trivial⟩

theorem layoutJ_decode (hclass : classify opcode = .j) (hopcode : (decode w).opcode = opcode) :
    immFitsJump (decode w).imm = true ∧ layoutJ (decode w).imm (decode w).rd opcode = w := by
  subst hopcode
  rw [decode_opcode] at hclass
  simp only [decode, hclass, layoutJ_extract]
  exact ⟨immFitsJump_immJ w, trivial⟩
end

/-- An operation's tests give the constant fields of its layout, the record's other fields its operands. -/
theorem wellFormed_and_encode_of_decodeInstr {w : Word} {i : Instr} (h : decodeInstr w = .ok i) :
    i.wellFormed = true ∧ encode i = w := by
  have hasm := (decodeInstr_eq_ok_iff w i).1 h
  have hop : mnemonic (decode w) ≠ .unknown := fun hunknown => by simp [hunknown, assemble] at hasm
  obtain ⟨hopcode, ⟨h3, h7⟩, hraw⟩ := selects_of_mnemonic rfl hop
  generalize mnemonic (decode w) = op at hasm hop hopcode h3 h7 hraw
  cases op <;> cases hasm
  case add | sub | sll | slt | sltu | xor | srl | sra | or | and =>
    exact ⟨rfl, layoutR_decode rfl hopcode (h3 _ rfl) (h7 _ rfl)⟩
  case slli | srli | srai => exact ⟨rfl, layoutR_decode_shift rfl hopcode (h3 _ rfl) (h7 _ rfl)⟩
  case addi | slti | sltiu | xori | ori | andi | lb | lh | lw | lbu | lhu | jalr =>
    exact layoutI_decode rfl hopcode (h3 _ rfl)
  case sb | sh | sw => exact layoutS_decode rfl hopcode (h3 _ rfl)
  case beq | bne | blt | bge | bltu | bgeu => exact layoutB_decode rfl hopcode (h3 _ rfl)
  case jal => exact layoutJ_decode rfl hopcode
  case lui | auipc => exact layoutU_decode rfl hopcode
  case ecall => exact ⟨rfl, by simpa [encode] using (hraw rfl).symm⟩

/-- Settles O30, by what the resolver tested of the word and the layout of its format. -/
theorem encodeInvertsDecode : Obligations.EncodeInvertsDecode := fun _ _ h => wellFormed_and_encode_of_decodeInstr h

/-! ## The opcode of ECALL -/

theorem mnemonic_of_opcode_system {w : Word} (h : extract w 0 7 = 0b1110011#7) :
    mnemonic (decode w) = if w = 0x00000073#32 then .ecall else .unknown := by
  simp [mnemonic, h]

/-- Settles O34: the resolver compares the whole word (R80), and the two inverses give the instruction. -/
theorem ecallIsOneWordOfItsOpcode : Obligations.EcallIsOneWordOfItsOpcode := by
  intro w hopcode
  refine ⟨⟨fun h => (encodeInvertsDecode w .ecall h).2.symm, ?_⟩, fun hw => ?_⟩
  · rintro rfl
    exact decodeInvertsEncode .ecall rfl
  · have hunknown : mnemonic (decode w) = .unknown := by rw [mnemonic_of_opcode_system hopcode, if_neg hw]
    exact ⟨hunknown, (decodeInstr_eq_error_iff w).2 hunknown⟩

end Sys2Proof
end

section
/-! PROOF. Family 40_alu_reg: each function of the ALU in integer arithmetic, and the register-register instructions as
its functions on x[rs1] and x[rs2] (spec/40_alu_reg.md R100 to R114). -/

namespace Sys2Proof.Machine

open Sys2Proof.Claims

/-! ## The functions of the ALU -/

theorem alu_add (a b : Word) : alu .add a b = BitVec.ofNat 32 (a.toNat + b.toNat) := by
  simp [alu, BitVec.ofNat_add]

/-- The signed and the unsigned reading of a word agree modulo 2^32, and so do their differences (R102). -/
theorem alu_sub (a b : Word) : alu .sub a b = BitVec.ofInt 32 ((a.toNat : Int) - (b.toNat : Int)) := by
  apply BitVec.eq_of_toInt_eq
  rw [alu, BitVec.toInt_sub, BitVec.toInt_ofInt, BitVec.toInt_eq_toNat_bmod, BitVec.toInt_eq_toNat_bmod,
    ← Int.sub_bmod]

/-- The shift amount as a number (R103, D18). -/
theorem shiftAmount_eq (b : Word) : shiftAmount b = b.toNat % 32 := by
  simp [shiftAmount, extract]

theorem alu_sll (a b : Word) : alu .sll a b = BitVec.ofNat 32 (a.toNat * 2 ^ (b.toNat % 32)) := by
  apply BitVec.eq_of_toNat_eq
  simp [alu, shiftAmount_eq, Nat.shiftLeft_eq]

theorem alu_srl (a b : Word) : alu .srl a b = BitVec.ofNat 32 (a.toNat / 2 ^ (b.toNat % 32)) := by
  rw [alu, shiftAmount_eq, ← Nat.shiftRight_eq_div_pow, ← BitVec.toNat_ushiftRight, BitVec.ofNat_toNat,
    BitVec.setWidth_eq]

/-- A sign-filling shift is a division rounding down. -/
theorem alu_sra (a b : Word) : alu .sra a b = BitVec.ofInt 32 (a.toInt / 2 ^ (b.toNat % 32)) := by
  have hshift : (alu .sra a b).toInt = a.toInt / 2 ^ (b.toNat % 32) := by
    simp [alu, shiftAmount_eq, BitVec.toInt_sshiftRight, Int.shiftRight_eq_div_pow]
  rw [← hshift, BitVec.ofInt_toInt]

theorem alu_slt (a b : Word) : alu .slt a b = if a.toInt < b.toInt then 1#32 else 0#32 := by
  simp [alu, BitVec.slt_iff_toInt_lt]

theorem alu_sltu (a b : Word) : alu .sltu a b = if a.toNat < b.toNat then 1#32 else 0#32 := by
  simp [alu, BitVec.ult_iff_lt, BitVec.lt_def]

/-! ## The instruction of each function -/

/-- The register-register instruction that computes a function (R105 to R114). -/
def AluFn.regInstr : AluFn → RegIdx → RegIdx → RegIdx → Instr
  | .add => .add
  | .sub => .sub
  | .sll => .sll
  | .slt => .slt
  | .sltu => .sltu
  | .xor => .xor
  | .srl => .srl
  | .sra => .sra
  | .or => .or
  | .and => .and

/-- The funct7 of its word (R72). -/
def AluFn.funct7 : AluFn → BitVec 7
  | .sub | .sra => 0b0100000#7
  | .add | .sll | .slt | .sltu | .xor | .srl | .or | .and => 0b0000000#7

/-- The funct3 of its word (R72). -/
def AluFn.funct3 : AluFn → BitVec 3
  | .add | .sub => 0b000#3
  | .sll => 0b001#3
  | .slt => 0b010#3
  | .sltu => 0b011#3
  | .xor => 0b100#3
  | .srl | .sra => 0b101#3
  | .or => 0b110#3
  | .and => 0b111#3

theorem AluFn.wellFormed_regInstr (fn : AluFn) (rd rs1 rs2 : RegIdx) : (fn.regInstr rd rs1 rs2).wellFormed = true := by
  cases fn <;> rfl

theorem AluFn.encode_regInstr (fn : AluFn) (rd rs1 rs2 : RegIdx) :
    encode (fn.regInstr rd rs1 rs2) =
      wordR fn.funct7 (fieldOf rs2) (fieldOf rs1) fn.funct3 (fieldOf rd) 0b0110011#7 := by
  cases fn <;> rfl

theorem AluFn.exec_regInstr (fn : AluFn) (rd rs1 rs2 : RegIdx) (s : State) :
    exec (fn.regInstr rd rs1 rs2) s = aluReg fn rd rs1 rs2 s := by
  cases fn <;> rfl

/-- The template of R104: a function's instruction decodes from its word and commits the function's value. -/
theorem AluFn.regOp (fn : AluFn) {value : Word → Word → Word} (hvalue : ∀ a b, alu fn a b = value a b) :
    RegOp fn.funct7 fn.funct3 fn.regInstr value := by
  intro rd rs1 rs2 s
  constructor
  · rw [← fn.encode_regInstr]
    exact decodeInstr_encode (fn.wellFormed_regInstr rd rs1 rs2)
  · rw [← hvalue, fn.exec_regInstr]
    exact ⟨_, rfl, s.commit_writesOnly rd _ _⟩

/-! ## The obligations -/

/-- Settles O4: sum and difference of words are those of their values modulo 2^32. -/
theorem addAndSubWrap : Obligations.AddAndSubWrap :=
  ⟨AluFn.add.regOp alu_add, AluFn.sub.regOp alu_sub⟩

/-- Settles O5: a shift by `x[rs2][4:0]` multiplies or divides by that power of two. -/
theorem registerShiftsUseLowFiveBits : Obligations.RegisterShiftsUseLowFiveBits :=
  ⟨AluFn.sll.regOp alu_sll, AluFn.srl.regOp alu_srl, AluFn.sra.regOp alu_sra⟩

/-- Settles O6: the comparisons of words are those of their signed and unsigned values. -/
theorem setLessThanSignedAndUnsigned : Obligations.SetLessThanSignedAndUnsigned :=
  ⟨AluFn.slt.regOp alu_slt, AluFn.sltu.regOp alu_sltu⟩

/-- Settles O7: the bitwise operations are the ALU's own. -/
theorem registerLogic : Obligations.RegisterLogic :=
  ⟨AluFn.xor.regOp fun _ _ => rfl, AluFn.or.regOp fun _ _ => rfl, AluFn.and.regOp fun _ _ => rfl⟩

end Sys2Proof.Machine
end

section
/-! PROOF. Family 41_alu_imm: the arithmetic-immediate instructions as functions of the ALU on x[rs1] and the immediate
(spec/41_alu_imm.md R120 to R130). -/

namespace Sys2Proof.Machine

open Sys2Proof.Claims

/-! ## The second operand -/

/-- The I layout keeps the low twelve bits of its immediate, which are the field that was extended (R60, R66). -/
theorem layoutI_signExtend (imm : BitVec 12) (rs1 : BitVec 5) (funct3 : BitVec 3) (rd : BitVec 5)
    (opcode : BitVec 7) : layoutI (imm.signExtend 32) rs1 funct3 rd opcode = wordI imm rs1 funct3 rd opcode := by
  have hlow : extract (imm.signExtend 32) 0 12 = imm := by
    rw [extract, ← sext_eq_signExtend, extractLsb'_sext (by decide) (by decide), BitVec.extractLsb'_eq_self]
  rw [layoutI, hlow, wordI]

/-- The ALU takes a shift amount modulo 32, which is the whole five-bit amount of an immediate shift (R103, R127). -/
theorem shamtOperand_mod (shamt : BitVec 5) : (shamtOperand shamt).toNat % 32 = shamt.toNat := by
  simpa [shamtOperand, zext] using shamt.isLt

/-- Words are added modulo 2^32 in their signed reading as in the unsigned one (R102). -/
theorem alu_add_signed (a b : Word) : alu .add a b = BitVec.ofInt 32 (a.toInt + b.toInt) := by
  rw [alu, BitVec.ofInt_add, BitVec.ofInt_toInt, BitVec.ofInt_toInt]

/-- The commit of R120: the function's value goes to rd and nothing else changes. -/
theorem aluImm_writesOnly (fn : AluFn) (rd rs1 : RegIdx) (operand : Word) (s : State) :
    ∃ t, aluImm fn rd rs1 operand s = .next t ∧
      WritesOnly s t rd (alu fn (s.readReg rs1) operand) (s.pc + 4#32) :=
  ⟨_, rfl, s.commit_writesOnly rd _ _⟩

/-! ## The instructions with a 12-bit immediate -/

/-- The functions that have an instruction with a 12-bit immediate, and that instruction (R122 to R126). -/
inductive AluFn.HasImmInstr : AluFn → (RegIdx → RegIdx → Word → Instr) → Prop
  | addi : HasImmInstr .add .addi
  | slti : HasImmInstr .slt .slti
  | sltiu : HasImmInstr .sltu .sltiu
  | xori : HasImmInstr .xor .xori
  | ori : HasImmInstr .or .ori
  | andi : HasImmInstr .and .andi

namespace AluFn.HasImmInstr

variable {fn : AluFn} {mk : RegIdx → RegIdx → Word → Instr}

theorem wellFormed (h : fn.HasImmInstr mk) (rd rs1 : RegIdx) (imm : Word) :
    (mk rd rs1 imm).wellFormed = immFits12 imm := by
  cases h <;> rfl

theorem encode_eq (h : fn.HasImmInstr mk) (rd rs1 : RegIdx) (imm : Word) :
    encode (mk rd rs1 imm) = layoutI imm (fieldOf rs1) fn.funct3 (fieldOf rd) 0b0010011#7 := by
  cases h <;> rfl

theorem exec_eq (h : fn.HasImmInstr mk) (rd rs1 : RegIdx) (imm : Word) (s : State) :
    exec (mk rd rs1 imm) s = aluImm fn rd rs1 imm s := by
  cases h <;> rfl

/-- The template of R120: the instruction decodes from its word and commits the function's value. -/
theorem immOp (h : fn.HasImmInstr mk) {value : Word → Word → Word} (hvalue : ∀ a b, alu fn a b = value a b) :
    ImmOp fn.funct3 mk value := by
  constructor
  · intro rd rs1 imm
    have hfits : immFits12 (imm.signExtend 32) = true := by
      rw [← sext_eq_signExtend]
      exact immFits12_sext imm
    rw [← layoutI_signExtend, ← h.encode_eq]
    exact decodeInstr_encode ((h.wellFormed rd rs1 _).trans hfits)
  · intro rd rs1 imm s
    rw [h.exec_eq, ← hvalue]
    exact aluImm_writesOnly fn rd rs1 imm s

end AluFn.HasImmInstr

/-! ## The immediate shifts -/

/-- The functions that have an instruction with a five-bit amount, and that instruction (R128 to R130). -/
inductive AluFn.HasShiftInstr : AluFn → (RegIdx → RegIdx → BitVec 5 → Instr) → Prop
  | slli : HasShiftInstr .sll .slli
  | srli : HasShiftInstr .srl .srli
  | srai : HasShiftInstr .sra .srai

namespace AluFn.HasShiftInstr

variable {fn : AluFn} {mk : RegIdx → RegIdx → BitVec 5 → Instr}

theorem wellFormed (h : fn.HasShiftInstr mk) (rd rs1 : RegIdx) (shamt : BitVec 5) :
    (mk rd rs1 shamt).wellFormed = true := by
  cases h <;> rfl

theorem encode_eq (h : fn.HasShiftInstr mk) (rd rs1 : RegIdx) (shamt : BitVec 5) :
    encode (mk rd rs1 shamt) = wordR fn.funct7 shamt (fieldOf rs1) fn.funct3 (fieldOf rd) 0b0010011#7 := by
  cases h <;> rfl

theorem exec_eq (h : fn.HasShiftInstr mk) (rd rs1 : RegIdx) (shamt : BitVec 5) (s : State) :
    exec (mk rd rs1 shamt) s = aluImm fn rd rs1 (shamtOperand shamt) s := by
  cases h <;> rfl

/-- The template of R120 with the operand of R127: the function's value for the amount that the word carries. -/
theorem shiftImmOp (h : fn.HasShiftInstr mk) {value : Word → Nat → Word}
    (hvalue : ∀ a b, alu fn a b = value a (b.toNat % 32)) : ShiftImmOp fn.funct7 fn.funct3 mk value := by
  intro rd rs1 shamt s
  constructor
  · rw [← h.encode_eq]
    exact decodeInstr_encode (h.wellFormed rd rs1 shamt)
  · rw [h.exec_eq, ← shamtOperand_mod shamt, ← hvalue]
    exact aluImm_writesOnly fn rd rs1 (shamtOperand shamt) s

end AluFn.HasShiftInstr

/-! ## The obligations -/

/-- Settles O8: the ALU's sum is that of the signed values modulo 2^32. -/
theorem addiWraps : Obligations.AddiWraps :=
  AluFn.HasImmInstr.addi.immOp alu_add_signed

/-- Settles O9: the ALU's comparisons, signed and unsigned, of x[rs1] with the extended immediate. -/
theorem setLessThanImmediate : Obligations.SetLessThanImmediate :=
  ⟨AluFn.HasImmInstr.slti.immOp alu_slt, AluFn.HasImmInstr.sltiu.immOp alu_sltu⟩

/-- Settles O10: the bitwise operations are the ALU's own. -/
theorem immediateLogic : Obligations.ImmediateLogic :=
  ⟨AluFn.HasImmInstr.xori.immOp fun _ _ => rfl, AluFn.HasImmInstr.ori.immOp fun _ _ => rfl,
    AluFn.HasImmInstr.andi.immOp fun _ _ => rfl⟩

/-- Settles O11: the ALU's shifts multiply or divide by a power of two, here that of the word's own amount. -/
theorem immediateShifts : Obligations.ImmediateShifts :=
  ⟨AluFn.HasShiftInstr.slli.shiftImmOp alu_sll, AluFn.HasShiftInstr.srli.shiftImmOp alu_srl,
    AluFn.HasShiftInstr.srai.shiftImmOp alu_sra⟩

end Sys2Proof.Machine
end

section
/-! PROOF. Family 42_load: every load as one template over its width and extension, and the data accesses that the memory
refuses (spec/42_load.md R140 to R149, spec/43_store.md R153). -/

namespace Sys2Proof.Machine

open Sys2Proof.Claims

/-! ## The value of an access -/

/-- Little-endian assembly of one byte (R33). -/
theorem leWord_one (b0 : Byte) : leWord [b0] = b0.setWidth 32 := by
  simp [leWord]

/-- A field that was stored zero-extended is sign-extended as its own signed value (R7). -/
theorem sext_setWidth {n : Nat} (hn : n ≤ 32) (v : BitVec n) : sext n (v.setWidth 32) = BitVec.ofInt 32 v.toInt := by
  rw [sext, BitVec.setWidth_setWidth_of_le v hn, BitVec.setWidth_eq, BitVec.signExtend]

/-- A field that was stored zero-extended is zero-extended as its own unsigned value (R7). -/
theorem zext_setWidth {n : Nat} (hn : n ≤ 32) (v : BitVec n) : zext n (v.setWidth 32) = BitVec.ofNat 32 v.toNat := by
  rw [zext, BitVec.setWidth_setWidth_of_le v hn, BitVec.setWidth_eq, BitVec.ofNat_toNat]

/-- An access that the memory does not refuse reads the little-endian value of its bytes (R33). -/
theorem State.memRead_of_forall_byteAt {s : State} {a : Word} {n : Nat} {kind : AccessKind} {b : Nat → Byte}
    (hfault : s.memFault a n kind = false) (hbytes : ∀ k, k < n → s.byteAt (a + BitVec.ofNat 32 k) = some (b k)) :
    s.memRead a n kind = some (leWord ((List.range n).map b)) := by
  have hlist : Memory.bytesAt s.mem a n = some ((List.range n).map b) :=
    (Memory.bytesAt_eq_some_iff _ _ _ _).2 ⟨by simp, fun k hk => by
      rw [List.getElem?_map, List.getElem?_range hk]
      exact hbytes k hk⟩
  exact (s.memRead_eq_some_iff _ _ _ _).2 ⟨hfault, _, hlist, rfl⟩

/-! ## What the templates do -/

theorem loadWith_of_memRead {n : Nat} {rd rs1 : RegIdx} {imm v : Word} {s : State} (ext : Word → Word)
    (h : s.memRead (effectiveAddress (s.readReg rs1) imm) n .load = some v) :
    loadWith n ext rd rs1 imm s = .next (s.commit rd (ext v) (candidatePc s.pc)) := by
  rw [loadWith, h]

theorem loadWith_of_memFault {n : Nat} {rd rs1 : RegIdx} {imm : Word} {s : State} (ext : Word → Word)
    (h : s.memFault (effectiveAddress (s.readReg rs1) imm) n .load = true) :
    loadWith n ext rd rs1 imm s = .next (s.halt .memoryFault) := by
  rw [loadWith, (s.memRead_eq_none_iff _ _ _).2 h]

theorem storeWith_of_memFault {n : Nat} {rs1 rs2 : RegIdx} {imm : Word} {s : State}
    (h : s.memFault (effectiveAddress (s.readReg rs1) imm) n .store = true) :
    storeWith n rs1 rs2 imm s = .next (s.halt .memoryFault) := by
  rw [storeWith, (s.memWrite_eq_none_iff _ _ _).2 h]

/-! ## The loads -/

/-- The loads, each by its funct3, its width in bytes and its extension (R145 to R149). -/
inductive IsLoad : BitVec 3 → Nat → (Word → Word) → (RegIdx → RegIdx → Word → Instr) → Prop
  | lb : IsLoad 0b000#3 1 (sext 8) .lb
  | lh : IsLoad 0b001#3 2 (sext 16) .lh
  | lw : IsLoad 0b010#3 4 id .lw
  | lbu : IsLoad 0b100#3 1 (zext 8) .lbu
  | lhu : IsLoad 0b101#3 2 (zext 16) .lhu

namespace IsLoad

variable {funct3 : BitVec 3} {n : Nat} {ext : Word → Word} {mk : RegIdx → RegIdx → Word → Instr}

theorem wellFormed (h : IsLoad funct3 n ext mk) (rd rs1 : RegIdx) (imm : Word) :
    (mk rd rs1 imm).wellFormed = immFits12 imm := by
  cases h <;> rfl

theorem encode_eq (h : IsLoad funct3 n ext mk) (rd rs1 : RegIdx) (imm : Word) :
    encode (mk rd rs1 imm) = layoutI imm (fieldOf rs1) funct3 (fieldOf rd) 0b0000011#7 := by
  cases h <;> rfl

theorem exec_eq (h : IsLoad funct3 n ext mk) (rd rs1 : RegIdx) (imm : Word) (s : State) :
    exec (mk rd rs1 imm) s = loadWith n ext rd rs1 imm s := by
  cases h <;> rfl

theorem decodeInstr_wordI (h : IsLoad funct3 n ext mk) (rd rs1 : RegIdx) (imm : BitVec 12) :
    decodeInstr (wordI imm (fieldOf rs1) funct3 (fieldOf rd) 0b0000011#7) = .ok (mk rd rs1 (imm.signExtend 32)) := by
  have hfits : immFits12 (imm.signExtend 32) = true := by
    rw [← sext_eq_signExtend]
    exact immFits12_sext imm
  rw [← layoutI_signExtend, ← h.encode_eq]
  exact decodeInstr_encode ((h.wellFormed rd rs1 _).trans hfits)

/-- The template of R140: the load decodes from its word and commits the extension of the value that it reads. -/
theorem loadOp (h : IsLoad funct3 n ext mk) {value : (Nat → Byte) → Word}
    (hvalue : ∀ b, ext (leWord ((List.range n).map b)) = value b) : LoadOp funct3 n mk value := by
  refine ⟨h.decodeInstr_wordI, fun rd rs1 imm s b hfault hbytes => ?_⟩
  have hread := State.memRead_of_forall_byteAt hfault hbytes
  rw [h.exec_eq, ← hvalue]
  exact ⟨_, loadWith_of_memRead ext hread, s.commit_writesOnly rd _ _⟩

/-- The failing load of R143. -/
theorem loadFaults (h : IsLoad funct3 n ext mk) : LoadFaults n mk := by
  intro rd rs1 imm s hfault
  rw [h.exec_eq]
  exact ⟨_, loadWith_of_memFault ext hfault, s.halt_haltsOnly _⟩

end IsLoad

/-! ## The stores -/

/-- The failing store of R153, of every instruction that runs the template of R150. -/
theorem storeFaults_of_exec_eq {n : Nat} {mk : RegIdx → RegIdx → Word → Instr}
    (hexec : ∀ rs1 rs2 imm s, exec (mk rs1 rs2 imm) s = storeWith n rs1 rs2 imm s) : StoreFaults n mk := by
  intro rs1 rs2 imm s hfault
  rw [hexec]
  exact ⟨_, storeWith_of_memFault hfault, s.halt_haltsOnly _⟩

/-! ## The obligations -/

/-- Settles O12: the value read is the one byte, which LB and LBU extend. -/
theorem byteLoads : Obligations.ByteLoads := by
  refine ⟨IsLoad.lb.loadOp fun b => ?_, IsLoad.lbu.loadOp fun b => ?_⟩
  · exact (congrArg (sext 8) (leWord_one (b 0))).trans (sext_setWidth (by decide) (b 0))
  · exact (congrArg (zext 8) (leWord_one (b 0))).trans (zext_setWidth (by decide) (b 0))

/-- Settles O13: the value read is the half-word of the two bytes, which LH and LHU extend. -/
theorem halfWordLoads : Obligations.HalfWordLoads := by
  refine ⟨IsLoad.lh.loadOp fun b => ?_, IsLoad.lhu.loadOp fun b => ?_⟩
  · exact (congrArg (sext 16) (leWord_two (b 0) (b 1))).trans (sext_setWidth (by decide) (b 1 ++ b 0))
  · exact (congrArg (zext 16) (leWord_two (b 0) (b 1))).trans (zext_setWidth (by decide) (b 1 ++ b 0))

/-- Settles O14: the value read is the word of the four bytes, which LW does not extend. -/
theorem wordLoad : Obligations.WordLoad :=
  IsLoad.lw.loadOp fun b => leWord_four (b 0) (b 1) (b 2) (b 3)

/-- Settles O16: a refused access takes the failing branch of its template, which halts and commits nothing. -/
theorem failingDataAccessHalts : Obligations.FailingDataAccessHalts :=
  ⟨⟨IsLoad.lb.loadFaults, IsLoad.lh.loadFaults, IsLoad.lw.loadFaults, IsLoad.lbu.loadFaults, IsLoad.lhu.loadFaults⟩,
    storeFaults_of_exec_eq fun _ _ _ _ => rfl, storeFaults_of_exec_eq fun _ _ _ _ => rfl,
    storeFaults_of_exec_eq fun _ _ _ _ => rfl⟩

end Sys2Proof.Machine
end

section
/-! PROOF. Family 43_store: every store as one template over its width, with the bytes it leaves and its frame
(spec/43_store.md R150 to R157). -/

namespace Sys2Proof.Machine

open Sys2Proof.Claims

/-! ## The word and the bytes -/

/-- The S layout keeps the two parts of the immediate's low twelve bits, which are those of the field that was extended
(R61, R66). -/
theorem layoutS_signExtend (imm : BitVec 12) (rs2 rs1 : BitVec 5) (funct3 : BitVec 3) (opcode : BitVec 7) :
    layoutS (imm.signExtend 32) rs2 rs1 funct3 opcode = wordS imm rs2 rs1 funct3 opcode := by
  rw [layoutS, ← sext_eq_signExtend, extract, extract, extractLsb'_sext (by decide) (by decide),
    extractLsb'_sext (by decide) (by decide), wordS]

/-- The stored bytes as slices of the word: byte k is `v[8k+7 : 8k]` (R34, R35). -/
theorem leBytes_eq_map_extractLsb' (n : Nat) (v : Word) :
    leBytes n v = (List.range n).map (fun k => v.extractLsb' (8 * k) 8) := by
  refine List.ext_getElem? fun k => ?_
  by_cases hk : k < n
  · rw [leBytes_getElem? n v k hk, List.getElem?_map, List.getElem?_range hk, Option.map_some]
  · rw [List.getElem?_eq_none (by simpa using hk), List.getElem?_eq_none (by simpa using hk)]

/-! ## What the template does -/

/-- A store that the memory does not refuse leaves the low bytes of x[rs2] at its address and changes nothing else but pc
and instret (R150, R152). -/
theorem storeWith_storesOnly {n : Nat} {rs1 rs2 : RegIdx} {imm : Word} {s : State} (hn : n ≤ 4)
    (hfault : s.memFault (effectiveAddress (s.readReg rs1) imm) n .store = false) :
    ∃ t, storeWith n rs1 rs2 imm s = .next t ∧
      StoresOnly s t (effectiveAddress (s.readReg rs1) imm) (leBytes n (s.readReg rs2)) (candidatePc s.pc) := by
  have hwrite := (s.memWrite_eq_some_iff _ n (s.readReg rs2) _).2 ⟨hfault, rfl⟩
  exact ⟨_, by rw [storeWith, hwrite], State.memWrite_storesOnly hn hwrite _⟩

/-! ## The stores -/

/-- The stores, each by its funct3 and its width in bytes (R155 to R157). -/
inductive IsStore : BitVec 3 → Nat → (RegIdx → RegIdx → Word → Instr) → Prop
  | sb : IsStore 0b000#3 1 .sb
  | sh : IsStore 0b001#3 2 .sh
  | sw : IsStore 0b010#3 4 .sw

namespace IsStore

variable {funct3 : BitVec 3} {n : Nat} {mk : RegIdx → RegIdx → Word → Instr}

theorem wellFormed (h : IsStore funct3 n mk) (rs1 rs2 : RegIdx) (imm : Word) :
    (mk rs1 rs2 imm).wellFormed = immFits12 imm := by
  cases h <;> rfl

theorem encode_eq (h : IsStore funct3 n mk) (rs1 rs2 : RegIdx) (imm : Word) :
    encode (mk rs1 rs2 imm) = layoutS imm (fieldOf rs2) (fieldOf rs1) funct3 0b0100011#7 := by
  cases h <;> rfl

theorem exec_eq (h : IsStore funct3 n mk) (rs1 rs2 : RegIdx) (imm : Word) (s : State) :
    exec (mk rs1 rs2 imm) s = storeWith n rs1 rs2 imm s := by
  cases h <;> rfl

theorem width_le_four (h : IsStore funct3 n mk) : n ≤ 4 := by
  cases h <;> decide

theorem decodeInstr_wordS (h : IsStore funct3 n mk) (rs1 rs2 : RegIdx) (imm : BitVec 12) :
    decodeInstr (wordS imm (fieldOf rs2) (fieldOf rs1) funct3 0b0100011#7) = .ok (mk rs1 rs2 (imm.signExtend 32)) := by
  have hfits : immFits12 (imm.signExtend 32) = true := by
    rw [← sext_eq_signExtend]
    exact immFits12_sext imm
  rw [← layoutS_signExtend, ← h.encode_eq]
  exact decodeInstr_encode ((h.wellFormed rs1 rs2 _).trans hfits)

/-- The template of R150: the store decodes from its word and leaves the low bytes of the value. -/
theorem storeOp (h : IsStore funct3 n mk) {bytes : Word → List Byte} (hbytes : ∀ v, leBytes n v = bytes v) :
    StoreOp funct3 n mk bytes := by
  refine ⟨h.decodeInstr_wordS, fun rs1 rs2 imm s hfault => ?_⟩
  rw [h.exec_eq, ← hbytes]
  exact storeWith_storesOnly h.width_le_four hfault

end IsStore

/-! ## The obligation -/

/-- Settles O15: each store leaves as many of the word's low bytes as it is wide, and nothing else. -/
theorem storesWriteTheLowBytes : Obligations.StoresWriteTheLowBytes :=
  ⟨IsStore.sb.storeOp (leBytes_eq_map_extractLsb' 1), IsStore.sh.storeOp (leBytes_eq_map_extractLsb' 2),
    IsStore.sw.storeOp (leBytes_eq_map_extractLsb' 4)⟩

end Sys2Proof.Machine
end

section
/-! PROOF. Family 44_branch: every branch as one template over its condition, and a transfer to a target that is not a
multiple of 4, by a branch or a jump (spec/44_branch.md R160 to R169, spec/45_jump.md R171, spec/60_exceptions.md
R235). -/

namespace Sys2Proof.Machine

open Sys2Proof.Claims

/-! ## The word -/

/-- The B layout keeps the parts of the immediate's bits 12 to 1, which are those of the field that was extended (R62,
R66). -/
theorem layoutB_signExtend (imm : BitVec 13) (rs2 rs1 : BitVec 5) (funct3 : BitVec 3) (opcode : BitVec 7) :
    layoutB (imm.signExtend 32) rs2 rs1 funct3 opcode = wordB imm rs2 rs1 funct3 opcode := by
  have hpart {start len : Nat} (h : start + len ≤ 13) :
      (imm.signExtend 32).extractLsb' start len = imm.extractLsb' start len := by
    rw [← sext_eq_signExtend, extractLsb'_sext h (by decide)]
  simp only [layoutB, wordB, extract, hpart (by decide : 12 + 1 ≤ 13), hpart (by decide : 5 + 6 ≤ 13),
    hpart (by decide : 1 + 4 ≤ 13), hpart (by decide : 11 + 1 ≤ 13)]

/-- Twelve bits above a zero, extended, are an even offset in the range of R62. -/
theorem immFitsBranch_signExtend (h : BitVec 12) : immFitsBranch ((h ++ 0#1).signExtend 32) = true := by
  rw [← sext_eq_signExtend]
  have hrange := toInt_sext_range (by decide) (h ++ 0#1)
  have heven := toInt_even_of_toNat_even (sext_append_zero_even (by decide : 0 < 12 + 1) h)
  simp only [immFitsBranch, Bool.and_eq_true, decide_eq_true_eq]
  omega

/-! ## The branch of each condition -/

/-- The branch with this condition (R166 to R169). -/
def Condition.instr : Condition → RegIdx → RegIdx → Word → Instr
  | .eq => .beq
  | .ne => .bne
  | .lt => .blt
  | .ge => .bge
  | .ltu => .bltu
  | .geu => .bgeu

/-- The funct3 of its word (R77). -/
def Condition.funct3 : Condition → BitVec 3
  | .eq => 0b000#3
  | .ne => 0b001#3
  | .lt => 0b100#3
  | .ge => 0b101#3
  | .ltu => 0b110#3
  | .geu => 0b111#3

/-- When it is taken, in signed or unsigned integers (R166 to R169). -/
def Condition.Taken : Condition → Word → Word → Prop
  | .eq => fun a b => a = b
  | .ne => fun a b => a ≠ b
  | .lt => fun a b => a.toInt < b.toInt
  | .ge => fun a b => a.toInt ≥ b.toInt
  | .ltu => fun a b => a.toNat < b.toNat
  | .geu => fun a b => a.toNat ≥ b.toNat

/-- The comparator answers by the integers that its operands stand for (R162). -/
theorem Condition.holds_iff_taken (c : Condition) (a b : Word) : c.holds a b = true ↔ c.Taken a b := by
  cases c
  case eq => exact beq_iff_eq
  case ne => exact bne_iff_ne
  case lt => exact BitVec.slt_iff_toInt_lt
  case ge => simp [Condition.holds, Condition.Taken, BitVec.slt]
  case ltu => exact BitVec.ult_iff_lt
  case geu => simp [Condition.holds, Condition.Taken, BitVec.ult]

theorem Condition.wellFormed_instr (c : Condition) (rs1 rs2 : RegIdx) (imm : Word) :
    (c.instr rs1 rs2 imm).wellFormed = immFitsBranch imm := by
  cases c <;> rfl

theorem Condition.encode_instr (c : Condition) (rs1 rs2 : RegIdx) (imm : Word) :
    encode (c.instr rs1 rs2 imm) = layoutB imm (fieldOf rs2) (fieldOf rs1) c.funct3 0b1100011#7 := by
  cases c <;> rfl

theorem Condition.exec_instr (c : Condition) (rs1 rs2 : RegIdx) (imm : Word) (s : State) :
    exec (c.instr rs1 rs2 imm) s = branchOn c rs1 rs2 imm s := by
  cases c <;> rfl

theorem Condition.decodeInstr_wordB (c : Condition) (rs1 rs2 : RegIdx) (h : BitVec 12) :
    decodeInstr (wordB (h ++ 0#1) (fieldOf rs2) (fieldOf rs1) c.funct3 0b1100011#7) =
      .ok (c.instr rs1 rs2 ((h ++ 0#1).signExtend 32)) := by
  rw [← layoutB_signExtend, ← c.encode_instr]
  exact decodeInstr_encode ((c.wellFormed_instr rs1 rs2 _).trans (immFitsBranch_signExtend h))

/-! ## What the template does -/

section
variable {c : Condition} {rs1 rs2 : RegIdx} {s : State}

theorem Condition.exec_instr_of_taken (h : c.Taken (s.readReg rs1) (s.readReg rs2)) (imm : Word) :
    exec (c.instr rs1 rs2 imm) s = .next (s.retire (branchTarget s.pc imm)) := by
  rw [c.exec_instr, branchOn, if_pos ((c.holds_iff_taken _ _).2 h)]

theorem Condition.exec_instr_of_not_taken (h : ¬ c.Taken (s.readReg rs1) (s.readReg rs2)) (imm : Word) :
    exec (c.instr rs1 rs2 imm) s = .next (s.retire (candidatePc s.pc)) := by
  rw [c.exec_instr, branchOn, if_neg (mt (c.holds_iff_taken _ _).1 h)]

end

/-- The template of R160: the branch decodes from its word and moves the pc, and only the pc, by its condition. -/
theorem Condition.branchOp (c : Condition) : BranchOp c.funct3 c.instr c.Taken := by
  refine ⟨c.decodeInstr_wordB, fun rs1 rs2 imm s => ?_⟩
  by_cases htaken : c.Taken (s.readReg rs1) (s.readReg rs2)
  · exact ⟨_, exec_instr_of_taken htaken imm, fun _ => s.retire_movesPcOnly _, fun hnot => absurd htaken hnot⟩
  · exact ⟨_, exec_instr_of_not_taken htaken imm, fun h => absurd h htaken, fun _ => s.retire_movesPcOnly _⟩

/-- Settles O17: the two conditions that compare for equality. -/
theorem branchesOnEquality : Obligations.BranchesOnEquality := ⟨Condition.eq.branchOp, Condition.ne.branchOp⟩

/-- Settles O18: the two conditions that compare the signed values. -/
theorem branchesOnSignedOrder : Obligations.BranchesOnSignedOrder := ⟨Condition.lt.branchOp, Condition.ge.branchOp⟩

/-- Settles O19: the two conditions that compare the unsigned values. -/
theorem branchesOnUnsignedOrder : Obligations.BranchesOnUnsignedOrder :=
  ⟨Condition.ltu.branchOp, Condition.geu.branchOp⟩

/-! ## Targets that are not multiples of 4 -/

/-- A step that begins at such a pc, with budget left, halts there before the fetch (R211, R235). -/
theorem step_of_misaligned_pc {s : State} (hrun : s.run = .running) (hbudget : s.budgetReached = false)
    (hpc : s.pc.toNat % 4 ≠ 0) : step s = .next (s.halt (.pcMisaligned s.pc)) := by
  simp [step, sequenceStep, hrun, hbudget, (pcAligned_eq_false_iff s.pc).2 hpc]

/-- An instruction that completes at such a pc leaves the halt to the next step, for which the budget still suffices. -/
theorem Completed.haltsMisaligned {s t : State} {target : Word} (h : Completed s t target) (hleft : TwoStepsLeft s)
    (htarget : target.toNat % 4 ≠ 0) : HaltsMisaligned t target := by
  obtain ⟨rfl, hinstret, hsame, hargs⟩ := h
  obtain ⟨hrun, hbudget⟩ := hleft
  have hnext : t.budgetReached = false :=
    State.budgetReached_eq_false fun n hn => hinstret ▸ hbudget n (hargs.budget.symm.trans hn)
  exact ⟨_, step_of_misaligned_pc (hsame.trans hrun) hnext htarget, t.halt_haltsOnly _⟩

theorem Condition.branchMisaligns (c : Condition) : BranchMisaligns c.instr c.Taken := by
  intro rs1 rs2 imm s hleft htaken htarget
  have hmoves := s.retire_movesPcOnly (branchTarget s.pc imm)
  exact ⟨_, exec_instr_of_taken htaken imm, hmoves, hmoves.completed.haltsMisaligned hleft htarget⟩

/-- The link and the target of a jump are committed together, whatever the target (R171). -/
theorem State.commit_writesOnly_and_haltsMisaligned {s : State} (hleft : TwoStepsLeft s) (rd : RegIdx) (link : Word)
    {target : Word} (htarget : target.toNat % 4 ≠ 0) :
    WritesOnly s (s.commit rd link target) rd link target ∧ HaltsMisaligned (s.commit rd link target) target :=
  have hwrites := s.commit_writesOnly rd link target
  ⟨hwrites, hwrites.completed.haltsMisaligned hleft htarget⟩

/-- Settles O22: each transfer commits its target as computed, and the next step tests it before the fetch. -/
theorem misalignedTargetHaltsAtTheNextStep : Obligations.MisalignedTargetHaltsAtTheNextStep := by
  refine ⟨⟨Condition.eq.branchMisaligns, Condition.ne.branchMisaligns, Condition.lt.branchMisaligns,
    Condition.ge.branchMisaligns, Condition.ltu.branchMisaligns, Condition.geu.branchMisaligns⟩,
    fun rd imm s hleft htarget => ?_, fun rd rs1 imm s hleft htarget => ?_⟩
  · exact ⟨_, rfl, State.commit_writesOnly_and_haltsMisaligned hleft rd _ htarget⟩
  · exact ⟨_, rfl, State.commit_writesOnly_and_haltsMisaligned hleft rd _ (by omega)⟩

end Sys2Proof.Machine
end

section
/-! PROOF. Family 45_jump: JAL and JALR from their words to the link and target they commit (spec/45_jump.md R170 to
R174). -/

namespace Sys2Proof.Machine

open Sys2Proof.Claims

/-! ## The words -/

/-- The J layout keeps the parts of the immediate's bits 20 to 1, which are those of the field that was extended (R64,
R66). -/
theorem layoutJ_signExtend (imm : BitVec 21) (rd : BitVec 5) (opcode : BitVec 7) :
    layoutJ (imm.signExtend 32) rd opcode = wordJ imm rd opcode := by
  have hpart {start len : Nat} (h : start + len ≤ 21) :
      (imm.signExtend 32).extractLsb' start len = imm.extractLsb' start len := by
    rw [← sext_eq_signExtend, extractLsb'_sext h (by decide)]
  simp only [layoutJ, wordJ, extract, hpart (by decide : 20 + 1 ≤ 21), hpart (by decide : 1 + 10 ≤ 21),
    hpart (by decide : 11 + 1 ≤ 21), hpart (by decide : 12 + 8 ≤ 21)]

/-- Twenty bits above a zero, extended, are an even offset in the range of R64. -/
theorem immFitsJump_signExtend (h : BitVec 20) : immFitsJump ((h ++ 0#1).signExtend 32) = true := by
  rw [← sext_eq_signExtend]
  have hrange := toInt_sext_range (by decide) (h ++ 0#1)
  have heven := toInt_even_of_toNat_even (sext_append_zero_even (by decide : 0 < 20 + 1) h)
  simp only [immFitsJump, Bool.and_eq_true, decide_eq_true_eq]
  omega

theorem decodeInstr_wordJ_jal (rd : RegIdx) (h : BitVec 20) :
    decodeInstr (wordJ (h ++ 0#1) (fieldOf rd) 0b1101111#7) = .ok (.jal rd ((h ++ 0#1).signExtend 32)) := by
  rw [← layoutJ_signExtend]
  exact decodeInstr_encode (i := .jal rd _) (immFitsJump_signExtend h)

theorem decodeInstr_wordI_jalr (rd rs1 : RegIdx) (imm : BitVec 12) :
    decodeInstr (wordI imm (fieldOf rs1) 0b000#3 (fieldOf rd) 0b1100111#7) =
      .ok (.jalr rd rs1 (imm.signExtend 32)) := by
  rw [← layoutI_signExtend, ← sext_eq_signExtend]
  exact decodeInstr_encode (i := .jalr rd rs1 _) (immFits12_sext imm)

/-! ## The target of JALR -/

/-- Clearing the lowest bit of a word rounds its value down to an even number. -/
theorem and_clearBitZero (v : Word) : v &&& 0xFFFFFFFE#32 = BitVec.ofNat 32 (v.toNat / 2 * 2) := by
  have hshift : v &&& 0xFFFFFFFE#32 = v >>> 1 <<< 1 := by
    ext k hk
    interval_cases k <;> simp
  apply BitVec.eq_of_toNat_eq
  simp [hshift, Nat.shiftLeft_eq, Nat.shiftRight_eq_div_pow]

/-- R173's target: the sum modulo 2^32, rounded down to an even number. -/
theorem jalrTarget_eq (base imm : Word) :
    jalrTarget base imm = BitVec.ofNat 32 ((base.toNat + imm.toNat) % 2 ^ 32 / 2 * 2) := by
  rw [jalrTarget, and_clearBitZero, BitVec.toNat_add]

/-! ## The obligations -/

/-- Settles O20: the commit takes the link and the target from the jump's own address. -/
theorem jalLinksAndJumps : Obligations.JalLinksAndJumps :=
  ⟨decodeInstr_wordJ_jal, fun rd _ s => ⟨_, rfl, s.commit_writesOnly rd _ _⟩⟩

/-- Settles O21: the target is computed from the state before the commit, so `x[rs1]` is read before rd is written. -/
theorem jalrLinksAndJumps : Obligations.JalrLinksAndJumps := by
  refine ⟨decodeInstr_wordI_jalr, fun rd rs1 imm s => ?_⟩
  rw [← jalrTarget_eq]
  exact ⟨_, rfl, s.commit_writesOnly rd _ _⟩

end Sys2Proof.Machine
end

section
/-! PROOF. Family 46_upper: LUI and AUIPC from their words to the value they commit, and the constants that LUI and ADDI
build (spec/46_upper.md R180 to R182). -/

namespace Sys2Proof.Machine

open Sys2Proof.Claims

/-! ## The words -/

/-- The U layout keeps the high twenty bits of its immediate, which are the field itself (R63, R66). -/
theorem layoutU_append_zero (imm20 : BitVec 20) (rd : BitVec 5) (opcode : BitVec 7) :
    layoutU (imm20 ++ 0#12) rd opcode = wordU imm20 rd opcode := by
  have hfield : extract (imm20 ++ 0#12) 12 20 = imm20 := BitVec.extractLsb'_append_eq_left
  rw [layoutU, hfield, wordU]

/-- The U format encodes exactly the words whose low twelve bits are zero (R63). -/
theorem immFitsUpper_iff (imm : Word) : immFitsUpper imm = true ↔ imm.setWidth 12 = 0#12 := by
  simp [immFitsUpper, BitVec.toNat_eq]

theorem immFitsUpper_append_zero (imm20 : BitVec 20) : immFitsUpper (imm20 ++ 0#12) = true := by
  rw [immFitsUpper_iff, BitVec.setWidth_append_eq_right]

theorem decodeInstr_wordU_lui (rd : RegIdx) (imm20 : BitVec 20) :
    decodeInstr (wordU imm20 (fieldOf rd) 0b0110111#7) = .ok (.lui rd (imm20 ++ 0#12)) := by
  rw [← layoutU_append_zero]
  exact decodeInstr_encode (i := .lui rd _) (immFitsUpper_append_zero imm20)

theorem decodeInstr_wordU_auipc (rd : RegIdx) (imm20 : BitVec 20) :
    decodeInstr (wordU imm20 (fieldOf rd) 0b0010111#7) = .ok (.auipc rd (imm20 ++ 0#12)) := by
  rw [← layoutU_append_zero]
  exact decodeInstr_encode (i := .auipc rd _) (immFitsUpper_append_zero imm20)

/-! ## What they commit -/

theorem execLui_writesOnly (rd : RegIdx) (imm : Word) (s : State) :
    ∃ t, exec (.lui rd imm) s = .next t ∧ WritesOnly s t rd imm (s.pc + 4#32) :=
  ⟨_, rfl, s.commit_writesOnly rd _ _⟩

theorem execAuipc_writesOnly (rd : RegIdx) (imm : Word) (s : State) :
    ∃ t, exec (.auipc rd imm) s = .next t ∧ WritesOnly s t rd (s.pc + imm) (s.pc + 4#32) :=
  ⟨_, rfl, s.commit_writesOnly rd _ _⟩

theorem WritesOnly.readReg_same {s t : State} {rd : RegIdx} {v p : Word} (h : WritesOnly s t rd v p) (hrd : rd ≠ 0) :
    t.readReg rd = v := by
  rw [h.regs rd, if_neg hrd, if_pos rfl]

/-! ## Constants from LUI and ADDI -/

/-- A constant less its extended low twelve bits is an upper immediate: the extension keeps those bits, and they cancel
(R181). -/
theorem immFitsUpper_sub_signExtend (c : Word) :
    immFitsUpper (c - (c.setWidth 12).signExtend 32) = true := by
  have hlow : ((c.setWidth 12).signExtend 32).setWidth 12 = c.setWidth 12 := by
    rw [← sext_eq_signExtend, BitVec.setWidth_eq_extractLsb' (by decide), extractLsb'_sext (by decide) (by decide),
      BitVec.extractLsb'_eq_self]
  rw [immFitsUpper_iff, BitVec.sub_eq_add_neg, BitVec.setWidth_add _ _ (by decide),
    BitVec.setWidth_neg_of_le (by decide), hlow, BitVec.add_right_neg]

/-- LUI of `hi` and then ADDI of `lo` leave their sum in rd (R181, R122). -/
theorem exec_lui_addi (hi lo : Word) {rd : RegIdx} (s : State) (hrd : rd ≠ 0) :
    ∃ t u, exec (.lui rd hi) s = .next t ∧ exec (.addi rd rd lo) t = .next u ∧ u.readReg rd = hi + lo := by
  obtain ⟨t, hlui, hwritesLui⟩ := execLui_writesOnly rd hi s
  obtain ⟨u, haddi, hwritesAddi⟩ := aluImm_writesOnly .add rd rd lo t
  refine ⟨t, u, hlui, haddi, ?_⟩
  rw [hwritesAddi.readReg_same hrd, hwritesLui.readReg_same hrd, alu]

/-! ## The obligations -/

/-- Settles O23: the commit takes the immediate as it is, and ADDI adds back the low bits that the upper part leaves
out. -/
theorem luiLoadsTheUpperImmediate : Obligations.LuiLoadsTheUpperImmediate := by
  refine ⟨decodeInstr_wordU_lui, execLui_writesOnly, fun c rd s hrd => ⟨?_, ?_, ?_⟩⟩
  · exact immFitsUpper_sub_signExtend c
  · rw [← sext_eq_signExtend]
    exact immFits12_sext _
  · simpa only [BitVec.sub_add_cancel] using
      exec_lui_addi (c - (c.setWidth 12).signExtend 32) ((c.setWidth 12).signExtend 32) s hrd

/-- Settles O24: the sum of words is that of their values modulo 2^32, and the pc is read before it moves. -/
theorem auipcAddsToItsOwnAddress : Obligations.AuipcAddsToItsOwnAddress := by
  refine ⟨decodeInstr_wordU_auipc, fun rd imm s => ?_⟩
  rw [← alu_add, alu]
  exact execAuipc_writesOnly rd imm s

end Sys2Proof.Machine
end

section
/-! PROOF. Family 60_exceptions: every halt shows why it came about, commits nothing, and keeps instret within the budget
(spec/60_exceptions.md R230, R231, R234 to R237, spec/50_datapath_and_step.md R211). -/

namespace Sys2Proof.Machine

/-! ## Why a halted state halted -/

section
variable {i : Instr} {s t : State} {w : Word}

/-- A running state has no halt to justify. -/
theorem State.haltJustified_of_running (h : s.run = .running) : s.haltJustified := by
  simp [State.haltJustified, h]

/-- A halt changes no register, so the data access of an instruction is the same after it. -/
theorem dataAccess_halt (i : Instr) (s : State) (r : HaltReason) : dataAccess i (s.halt r) = dataAccess i s := by
  cases i <;> rfl

/-- ECALL halts with x17 as it was, by the codes R194 and R195 name. -/
theorem execEcall_haltJustified (hrun : s.run = .running) (hfetch : s.fetch = some 0x00000073#32)
    (h : execEcall s = .next t) : t.haltJustified := by
  obtain ⟨-, v, u, hget, rfl⟩ | ⟨-, rfl⟩ | ⟨hcode, rfl⟩ | ⟨hcode, rfl⟩ := execEcall_cases h
  · obtain ⟨rest, rfl, -⟩ := State.hostGetChar_some hget
    exact State.haltJustified_of_running hrun
  · exact State.haltJustified_of_running hrun
  · exact ⟨hfetch, hcode⟩
  · exact ⟨hfetch, hcode⟩

/-- An instruction halts by its data access or, if it is ECALL, by its code; the word at pc still tells which. -/
theorem exec_haltJustified (hrun : s.run = .running) (hfetch : s.fetch = some w) (hdecode : decodeInstr w = .ok i)
    (h : exec i s = .next t) : t.haltJustified := by
  obtain ⟨rd, v, p, rfl⟩ | ⟨p, rfl⟩ | ⟨a, n, v, u, -, -, hwrite, rfl⟩ | ⟨a, n, k, haccess, hfault, rfl⟩ | ⟨rfl, hecall⟩ :=
    exec_cases h
  · exact State.haltJustified_of_running hrun
  · exact State.haltJustified_of_running hrun
  · obtain ⟨-, rfl⟩ := (s.memWrite_eq_some_iff a n v u).1 hwrite
    exact State.haltJustified_of_running hrun
  · exact .inr ⟨w, i, a, n, k, hfetch, hdecode, (dataAccess_halt i s _).trans haccess, hfault⟩
  · obtain rfl : 0x00000073#32 = w := (wellFormed_and_encode_of_decodeInstr hdecode).2
    exact execEcall_haltJustified hrun hfetch hecall

theorem step_haltJustified (h : step s = .next t) : t.haltJustified := by
  obtain ⟨hrun, ⟨hbudget, rfl⟩ | ⟨-, hpc, rfl⟩ | ⟨-, -, hfault, rfl⟩ | ⟨-, -, w, e, hfetch, hdecode, rfl⟩ |
    ⟨-, -, w, i, hfetch, hdecode, hexec⟩⟩ := step_cases h
  · exact s.budgetReached_eq_true_iff.1 hbudget
  · exact ⟨rfl, hpc⟩
  · exact .inl hfault
  · exact ⟨rfl, hfetch, (decodeInstr_eq_error_iff w).1 ⟨e, hdecode⟩⟩
  · exact exec_haltJustified hrun hfetch hdecode hexec

end

/-- Settles O50, by the cases of a step: the test that raises a halt reads only what the halt leaves as it was. -/
theorem stepKeepsTheHaltReasonTrue : Obligations.StepKeepsTheHaltReasonTrue :=
  fun _ _ _ h => step_haltJustified h

/-! ## What a halt commits -/

section
variable {i : Instr} {s t : State}

/-- An instruction stays in its run state, exits, or raises a fault and does nothing else. -/
theorem exec_halt_cases (h : exec i s = .next t) :
    t.run = s.run ∨ t = s.haltExit ∨ ∃ r, r ≠ .exit ∧ t = s.halt r := by
  obtain ⟨rd, v, p, rfl⟩ | ⟨p, rfl⟩ | ⟨a, n, v, u, -, -, hwrite, rfl⟩ | ⟨a, n, k, -, -, rfl⟩ | ⟨-, hecall⟩ := exec_cases h
  · exact .inl rfl
  · exact .inl rfl
  · obtain ⟨-, rfl⟩ := (s.memWrite_eq_some_iff a n v u).1 hwrite
    exact .inl rfl
  · exact .inr (.inr ⟨.memoryFault, by decide, rfl⟩)
  · obtain ⟨-, v, u, hget, rfl⟩ | ⟨-, rfl⟩ | ⟨-, rfl⟩ | ⟨-, rfl⟩ := execEcall_cases hecall
    · obtain ⟨rest, rfl, -⟩ := State.hostGetChar_some hget
      exact .inl rfl
    · exact .inl rfl
    · exact .inr (.inl rfl)
    · exact .inr (.inr ⟨.unsupportedSyscall, by decide, rfl⟩)

/-- A step stays in Running, exits, or raises a fault and does nothing else. -/
theorem step_halt_cases (h : step s = .next t) :
    t.run = .running ∨ t = s.haltExit ∨ ∃ r, r ≠ .exit ∧ t = s.halt r := by
  obtain ⟨hrun, ⟨-, rfl⟩ | ⟨-, -, rfl⟩ | ⟨-, -, -, rfl⟩ | ⟨-, -, w, e, -, -, rfl⟩ | ⟨-, -, w, i, -, -, hexec⟩⟩ :=
    step_cases h
  case inr.inr.inr.inr => exact hrun ▸ exec_halt_cases hexec
  all_goals exact .inr (.inr ⟨_, by simp, rfl⟩)

end

/-- The exit is a halt of the state that has counted the ECALL (R194). -/
theorem State.haltExit_haltsOnly (s : State) : HaltsOnly { s with instret := s.instret + 1 } s.haltExit .exit :=
  State.halt_haltsOnly { s with instret := s.instret + 1 } .exit

/-- Settles O42: a halted next state is the exit's or a fault's, and the run state tells which. -/
theorem haltingCommitsNothing : Obligations.HaltingCommitsNothing := by
  unfold Obligations.HaltingCommitsNothing
  intro s t r h hhalt
  obtain hrun | rfl | ⟨r', hr', rfl⟩ := step_halt_cases h
  · simp [hrun] at hhalt
  · obtain rfl : .exit = r := by simpa using hhalt
    exact ⟨fun hr => absurd rfl hr, fun _ => s.haltExit_haltsOnly⟩
  · obtain rfl : r' = r := by simpa using hhalt
    exact ⟨fun _ => s.halt_haltsOnly r', fun hr => absurd hr hr'⟩

/-! ## The budget -/

theorem State.instret_lt_of_budgetReached_eq_false {s : State} (h : s.budgetReached = false) {n : Nat}
    (hn : s.budget = some n) : s.instret < n := by
  by_contra hle
  exact Bool.false_ne_true (h.symm.trans (s.budgetReached_eq_true_iff.2 ⟨n, hn, by omega⟩))

theorem exec_instret_le {i : Instr} {s t : State} (hrun : s.run = .running) (h : exec i s = .next t) :
    t.instret ≤ s.instret + 1 := by
  obtain ⟨-, hcount⟩ | ⟨r, -, -, hcount⟩ := exec_countsInstret hrun h <;> omega

/-- Settles O51: an instruction runs only with budget left and counts at most once, and the other halts count nothing. -/
theorem stepKeepsInstretWithinTheBudget : Obligations.StepKeepsInstretWithinTheBudget := by
  unfold Obligations.StepKeepsInstretWithinTheBudget
  intro s t hwithin h n hn
  rw [(step_keepsArgumentsAndPopulation h).args.budget] at hn
  obtain ⟨hrun, ⟨-, rfl⟩ | ⟨-, -, rfl⟩ | ⟨-, -, -, rfl⟩ | ⟨-, -, w, e, -, -, rfl⟩ | ⟨hbudget, -, w, i, -, -, hexec⟩⟩ :=
    step_cases h
  case inr.inr.inr.inr =>
    have hlt := State.instret_lt_of_budgetReached_eq_false hbudget hn
    have hle := exec_instret_le hrun hexec
    omega
  all_goals exact hwithin n hn

/-! ## The halts before an instruction runs -/

section
variable {s : State}

/-- A used-up budget is found before anything else (R237). -/
theorem step_of_budgetReached (hrun : s.run = .running) (hbudget : s.budgetReached = true) :
    step s = .next (s.halt .budgetExceeded) := by
  simp [step, sequenceStep, hrun, hbudget]

theorem step_of_refused_fetch (hrun : s.run = .running) (hbudget : s.budgetReached = false) (hpc : s.pc.toNat % 4 = 0)
    (hfault : s.memFault s.pc 4 .fetch = true) : step s = .next (s.halt .memoryFault) := by
  have hfetch : s.fetch = none := (s.memRead_eq_none_iff s.pc 4 .fetch).2 hfault
  simp [step, sequenceStep, hrun, hbudget, (pcAligned_eq_true_iff s.pc).2 hpc, hfetch]

end

/-- Settles O38: the budget is the first test of a step. -/
theorem usedUpBudgetHaltsFirst : Obligations.UsedUpBudgetHaltsFirst := by
  unfold Obligations.UsedUpBudgetHaltsFirst
  intro s n hrun hn hle
  exact ⟨_, step_of_budgetReached hrun (s.budgetReached_eq_true_iff.2 ⟨n, hn, hle⟩), s.halt_haltsOnly _⟩

/-- Settles O39: the alignment is tested once the budget is, and before the fetch. -/
theorem misalignedPcHaltsBeforeTheFetch : Obligations.MisalignedPcHaltsBeforeTheFetch := by
  unfold Obligations.MisalignedPcHaltsBeforeTheFetch
  intro s hrun hbudget hpc
  exact ⟨_, step_of_misaligned_pc hrun (State.budgetReached_eq_false hbudget) hpc, s.halt_haltsOnly _⟩

/-- Settles O40: with budget left and the pc aligned, the fetch is the next thing that can halt the step. -/
theorem failingFetchHalts : Obligations.FailingFetchHalts := by
  unfold Obligations.FailingFetchHalts
  intro s ⟨hrun, hbudget, hpc⟩ hfault
  exact ⟨_, step_of_refused_fetch hrun (State.budgetReached_eq_false hbudget) hpc hfault, s.halt_haltsOnly _⟩

end Sys2Proof.Machine
end

section
/-! PROOF. Family 47_system: the services of ECALL, and which instructions touch the host streams (spec/47_system.md R190
to R196). -/

namespace Sys2Proof.Machine

open Sys2Proof.Claims

/-! ## What each code runs -/

section
variable {s : State}

theorem exec_ecall_one (hcode : s.readReg 17 = 1#32) : exec .ecall s = ecallGetChar s := by
  simp [exec, execEcall, hcode]

theorem exec_ecall_two (hcode : s.readReg 17 = 2#32) : exec .ecall s = ecallPutChar s := by
  simp [exec, execEcall, hcode]

theorem exec_ecall_exit (hcode : s.readReg 17 = 3#32 ∨ s.readReg 17 = 93#32) : exec .ecall s = .next s.haltExit := by
  obtain hcode | hcode := hcode <;> simp [exec, execEcall, hcode]

theorem exec_ecall_unsupported (h1 : s.readReg 17 ≠ 1#32) (h2 : s.readReg 17 ≠ 2#32) (h3 : s.readReg 17 ≠ 3#32)
    (h93 : s.readReg 17 ≠ 93#32) : exec .ecall s = .next (s.halt .unsupportedSyscall) := by
  simp [exec, execEcall, h1, h2, h3, h93]

/-! ## Getchar -/

theorem HostValue.delivered_char (c : Byte) : (HostValue.char c).delivered = BitVec.ofNat 32 c.toNat := by
  rw [HostValue.delivered, zext, BitVec.setWidth_eq, BitVec.ofNat_toNat]

theorem State.hostGetChar_of_cons {v : HostValue} {rest : List HostValue} (hin : s.hostIn = v :: rest) :
    s.hostGetChar = some (v.delivered, { s with hostIn := rest }) := by
  simp [State.hostGetChar, hin]

/-- A getchar that has something to deliver completes with it in x10 (R192). -/
theorem exec_ecall_getsChar {u : State} {v : Word} (hcode : s.readReg 17 = 1#32) (hget : s.hostGetChar = some (v, u)) :
    ∃ t, exec .ecall s = .next t ∧ GetsChar s t v u.hostIn := by
  refine ⟨u.commit 10 v (candidatePc s.pc), by rw [exec_ecall_one hcode, ecallGetChar, hget], ?_⟩
  obtain ⟨rest, rfl, -⟩ := State.hostGetChar_some hget
  have hregs := (State.commit_writesOnly { s with hostIn := rest } 10 v (candidatePc s.pc)).regs
  exact ⟨⟨rfl, rfl, rfl, ⟨rfl, rfl, rfl, rfl⟩⟩, hregs, fun _ => rfl, rfl, rfl⟩

end

/-- Settles O25: the three deliveries are what the stream's getchar answers, and where it answers nothing the step has no
next state. -/
theorem getCharDeliversTheNextInput : Obligations.GetCharDeliversTheNextInput := by
  unfold Obligations.GetCharDeliversTheNextInput
  intro s hcode
  refine ⟨fun c rest hin => ?_, fun v rest hin => ?_, fun hin hended => ?_, fun hin hended t => ?_⟩
  · rw [← HostValue.delivered_char]
    exact exec_ecall_getsChar hcode (State.hostGetChar_of_cons hin)
  · exact exec_ecall_getsChar hcode (State.hostGetChar_of_cons hin)
  · rw [← hin]
    exact exec_ecall_getsChar hcode (by simp [State.hostGetChar, hin, hended])
  · simp [exec_ecall_one hcode, ecallGetChar, State.hostGetChar, hin, hended]

/-! ## The other services -/

/-- Settles O26: putchar moves the pc after it has appended the byte. -/
theorem putCharAppendsTheLowByte : Obligations.PutCharAppendsTheLowByte := by
  unfold Obligations.PutCharAppendsTheLowByte
  intro s hcode
  exact ⟨_, exec_ecall_two hcode, ⟨rfl, rfl, rfl, ⟨rfl, rfl, rfl, rfl⟩⟩, fun _ => rfl, fun _ => rfl, rfl, rfl⟩

/-- Settles O27: the exit sets the run state and counts the ECALL. -/
theorem exitHaltsCleanly : Obligations.ExitHaltsCleanly := by
  unfold Obligations.ExitHaltsCleanly
  intro s hcode
  exact ⟨_, exec_ecall_exit hcode, rfl, rfl, rfl, s.readReg_haltExit, s.byteAt_haltExit, rfl, rfl, ⟨rfl, rfl, rfl, rfl⟩⟩

/-- Settles O28: a code that is none of the four falls through to the halt. -/
theorem unsupportedSyscallHalts : Obligations.UnsupportedSyscallHalts := by
  unfold Obligations.UnsupportedSyscallHalts
  intro s h1 h2 h3 h93
  exact ⟨_, exec_ecall_unsupported h1 h2 h3 h93, s.halt_haltsOnly _⟩

/-! ## The host streams -/

section
variable {i : Instr} {s t : State}

theorem exec_streams_of_ne_ecall (hi : i ≠ .ecall) (h : exec i s = .next t) :
    t.hostIn = s.hostIn ∧ t.hostOut = s.hostOut := by
  obtain ⟨rd, v, p, rfl⟩ | ⟨p, rfl⟩ | ⟨a, n, v, u, -, -, hwrite, rfl⟩ | ⟨a, n, k, -, -, rfl⟩ | ⟨hecall, -⟩ := exec_cases h
  · exact ⟨rfl, rfl⟩
  · exact ⟨rfl, rfl⟩
  · obtain ⟨-, rfl⟩ := (s.memWrite_eq_some_iff a n v u).1 hwrite
    exact ⟨rfl, rfl⟩
  · exact ⟨rfl, rfl⟩
  · exact absurd hecall hi

/-- Getchar takes at most the first value of the input, putchar appends one byte, the halts touch neither stream. -/
theorem execEcall_streams (h : execEcall s = .next t) :
    (t.hostIn = s.hostIn ∨ ∃ v, s.hostIn = v :: t.hostIn) ∧ (t.hostOut = s.hostOut ∨ ∃ b, t.hostOut = s.hostOut ++ [b]) := by
  obtain ⟨-, v, u, hget, rfl⟩ | ⟨-, rfl⟩ | ⟨-, rfl⟩ | ⟨-, rfl⟩ := execEcall_cases h
  · obtain ⟨rest, rfl, hin⟩ := State.hostGetChar_some hget
    exact ⟨hin.imp_left Eq.symm, .inl rfl⟩
  · exact ⟨.inl rfl, .inr ⟨_, rfl⟩⟩
  · exact ⟨.inl rfl, .inl rfl⟩
  · exact ⟨.inl rfl, .inl rfl⟩

end

/-- Settles O44: an instruction is ECALL, with one service of the streams at most, or leaves both as they are. -/
theorem onlyEcallTouchesTheHostStreams : Obligations.OnlyEcallTouchesTheHostStreams := by
  unfold Obligations.OnlyEcallTouchesTheHostStreams
  intro i s t h
  refine ⟨fun hi => exec_streams_of_ne_ecall hi h, ?_⟩
  by_cases hi : i = .ecall
  · subst hi
    exact execEcall_streams h
  · obtain ⟨hin, hout⟩ := exec_streams_of_ne_ecall hi h
    exact ⟨.inl hin, .inl hout⟩

end Sys2Proof.Machine
end

section
/-! PROOF. Family 50_datapath_and_step: the step runs the word at pc, and the PC calculator gives the pc it commits
(spec/50_datapath_and_step.md R205, R206, R210 to R215, spec/47_system.md R196). -/

namespace Sys2Proof.Machine

open Sys2Proof.Claims

/-! ## The fetched word -/

theorem fetch_of_fetchBytes {s : State} {b : Nat → Byte} (h : FetchBytes s b) :
    s.fetch = some (b 3 ++ b 2 ++ b 1 ++ b 0) := by
  obtain ⟨hfault, hbytes⟩ := h
  rw [← leWord_four]
  exact State.memRead_of_forall_byteAt hfault hbytes

/-- With no halt before the decoder, an UNKNOWN word halts the step (R196). -/
theorem step_of_unknown {s : State} {w : Word} (hrun : s.run = .running) (hbudget : s.budgetReached = false)
    (hpc : s.pc.toNat % 4 = 0) (hfetch : s.fetch = some w) (hunknown : mnemonic (decode w) = .unknown) :
    step s = .next (s.halt (.unknownInstruction s.pc w)) := by
  obtain ⟨e, hdecode⟩ := (decodeInstr_eq_error_iff w).2 hunknown
  simp [step, sequenceStep, runWord, hrun, hbudget, (pcAligned_eq_true_iff s.pc).2 hpc, hfetch, hdecode]

/-- Settles O36: the bytes at pc are the fetched word, and no test before execution halts. -/
theorem stepRunsTheDecodedInstruction : Obligations.StepRunsTheDecodedInstruction := by
  unfold Obligations.StepRunsTheDecodedInstruction
  intro s b i ⟨hrun, hbudget, hpc⟩ hbytes hdecode
  exact step_eq_exec hrun (State.budgetReached_eq_false hbudget) hpc (fetch_of_fetchBytes hbytes) hdecode

/-- Settles O37: the decoder has no instruction for an UNKNOWN word, so the step halts before execution. -/
theorem unknownWordHalts : Obligations.UnknownWordHalts := by
  unfold Obligations.UnknownWordHalts
  intro s b ⟨hrun, hbudget, hpc⟩ hbytes hunknown
  exact ⟨_, step_of_unknown hrun (State.budgetReached_eq_false hbudget) hpc (fetch_of_fetchBytes hbytes) hunknown,
    s.halt_haltsOnly _⟩

/-! ## The PC calculator -/

/-- R206's table: only the jumps and the taken branches leave the next instruction. -/
theorem pcCalculator_eq (op : OperationId) (pc imm rs1 : Word) (taken : Bool) :
    pcCalculator op pc imm rs1 taken =
      (if op = .jal then pc + imm else if op = .jalr then (rs1 + imm) &&& 0xFFFFFFFE#32
       else if isBranch op && taken then pc + imm else pc + 4#32, pc + 4#32) := by
  cases op
  case beq | bne | blt | bge | bltu | bgeu => cases taken <;> rfl
  all_goals rfl

theorem pcCalculator_link (op : OperationId) (pc imm rs1 : Word) (taken : Bool) :
    (pcCalculator op pc imm rs1 taken).2 = candidatePc pc := by
  rw [pcCalculator_eq]; rfl

/-- The integer comparator at a condition's funct3 is the condition (R162). -/
theorem comparator_funct3 (c : Condition) (a b : Word) : comparator c.funct3 a b = c.holds a b := by
  rw [Bool.eq_iff_iff, c.holds_iff_taken]
  cases c <;> exact decide_eq_true_iff

theorem branchOn_pc {c : Condition} {rs1 rs2 : RegIdx} {imm : Word} {s t : State}
    (h : branchOn c rs1 rs2 imm s = .next t) :
    t.pc = if comparator c.funct3 (s.readReg rs1) (s.readReg rs2) then branchTarget s.pc imm else candidatePc s.pc := by
  cases h
  rw [comparator_funct3]; rfl

theorem loadWith_pc {n : Nat} {ext : Word → Word} {rd rs1 : RegIdx} {imm : Word} {s t : State}
    (hrun : t.run = .running) (h : loadWith n ext rd rs1 imm s = .next t) : t.pc = candidatePc s.pc := by
  obtain ⟨-, rfl⟩ | ⟨v, -, rfl⟩ := loadWith_cases h
  · simp at hrun
  · rfl

theorem storeWith_pc {n : Nat} {rs1 rs2 : RegIdx} {imm : Word} {s t : State} (hrun : t.run = .running)
    (h : storeWith n rs1 rs2 imm s = .next t) : t.pc = candidatePc s.pc := by
  obtain ⟨-, rfl⟩ | ⟨u, -, rfl⟩ := storeWith_cases h
  · simp at hrun
  · rfl

theorem execEcall_pc {s t : State} (hrun : t.run = .running) (h : execEcall s = .next t) : t.pc = candidatePc s.pc := by
  obtain ⟨-, v, u, -, rfl⟩ | ⟨-, rfl⟩ | ⟨-, rfl⟩ | ⟨-, rfl⟩ := execEcall_cases h
  · rfl
  · rfl
  · simp at hrun
  · simp at hrun

section
variable {op : OperationId} {d : DecodedInstruction} {i : Instr} {s t : State}

/-- An instruction that completes commits the calculator's next pc for the record it was assembled from. -/
theorem exec_pc_of_assemble (hasm : assemble op d = some i) (hfunct : op.HasFunct d.funct7 d.funct3)
    (hrun : t.run = .running) (h : exec i s = .next t) :
    t.pc = (pcCalculator op s.pc d.imm (s.readReg (regOf d.rs1))
      (comparator d.funct3 (s.readReg (regOf d.rs1)) (s.readReg (regOf d.rs2)))).1 := by
  cases op <;> cases hasm
  case beq | bne | blt | bge | bltu | bgeu =>
    have hpc := branchOn_pc h
    rw [hfunct.1 _ rfl]
    exact hpc
  case lb | lh | lw | lbu | lhu => exact loadWith_pc hrun h
  case sb | sh | sw => exact storeWith_pc hrun h
  case ecall => exact execEcall_pc hrun h
  all_goals cases h; rfl

/-- The jumps leave the calculator's link value in rd (R170). -/
theorem exec_link_of_assemble (hasm : assemble op d = some i) (hop : op = .jal ∨ op = .jalr) (hrd : regOf d.rd ≠ 0)
    (h : exec i s = .next t) : t.readReg (regOf d.rd) = candidatePc s.pc := by
  obtain rfl | rfl := hop <;> cases hasm <;> cases h
  · exact (s.commit_writesOnly _ _ _).readReg_same hrd
  · exact (s.commit_writesOnly _ _ _).readReg_same hrd

end

/-- Settles O48: each instruction commits the calculator's sum for its own operation, and the resolver gives a branch the
funct3 of its condition. -/
theorem pcCalculatorGivesTheCommittedPc : Obligations.PcCalculatorGivesTheCommittedPc := by
  unfold Obligations.PcCalculatorGivesTheCommittedPc
  refine ⟨pcCalculator_eq, fun w i s t next link hdecode hexec hrun hcalc => ?_⟩
  have hasm := (decodeInstr_eq_ok_iff w i).1 hdecode
  constructor
  · rw [exec_pc_of_assemble hasm (mnemonic_hasFunct _) hrun hexec, hcalc]
  · intro hop hrd
    rw [exec_link_of_assemble hasm hop hrd hexec, ← pcCalculator_link, hcalc]

end Sys2Proof.Machine
end

section
/-! PROOF. Family 70_reset_and_hazards, and the sample words: the reset state of a run (spec/70_reset_and_hazards.md R260)
and words of spec/95_test_vectors.md. -/

namespace Sys2Proof.Machine

theorem State.readReg_resetWith (a : RunArgs) (r : RegIdx) : (State.resetWith a).readReg r = 0#32 := by
  unfold State.readReg
  split
  · rfl
  · exact Vector.getElem_replicate _

/-- Settles O1: every field of the reset state is a constant or an argument. -/
theorem resetStateOfAnyRun : Obligations.ResetStateOfAnyRun := by
  unfold Obligations.ResetStateOfAnyRun
  exact fun a => ⟨State.readReg_resetWith a, rfl, rfl, rfl, rfl, rfl, rfl, rfl, rfl, rfl, rfl⟩

/-- Settles O35: the decoder evaluated on each word. -/
theorem sampleWordsDecode : Obligations.SampleWordsDecode := by
  unfold Obligations.SampleWordsDecode
  decide

end Sys2Proof.Machine
end
